-- ==== Sys2Proof/Word.lean ====
section
/-! DEFINITION. The machine's word types (spec 00_scope.md R2, R8). -/

namespace Sys2Proof

/-- A general register, a timer or a memory cell: 8 bits (R2). -/
abbrev Byte := BitVec 8

/-- An instruction word, the program counter, the index register, a stack slot: 16 bits (R2). -/
abbrev Word := BitVec 16

/-- The number of a general register: a 4-bit field, so an index outside 0..15 cannot occur (R27). -/
abbrev Reg := Fin 16

/-- A key value 0..15 (R41, R207): 4 bits, zero-extended into a register. -/
abbrev Key := BitVec 4

end Sys2Proof
end

