-- ==== Sys2Proof/Syntax.lean ====
section
/-! DEFINITION. The instructions: one constructor per row of spec/opcode_table.json (spec 30_encoding.md R84).
Every field has exactly the values its bits can hold (R83, R90). -/

namespace Sys2Proof

/-- The 34 instruction kinds, in the order of R84. `CLS` and `RET` carry no field: the second nibble of their
words is ignored (R87, log 12). -/
inductive Instr where
  /-- `CLS` (R185) -/
  | cls
  /-- `RET` (R130) -/
  | ret
  /-- `JP nnn` (R131) -/
  | jp (nnn : BitVec 12)
  /-- `CALL nnn` (R132) -/
  | call (nnn : BitVec 12)
  /-- `SE Vx, kk` (R134) -/
  | seImm (x : Reg) (kk : Byte)
  /-- `SNE Vx, kk` (R135) -/
  | sneImm (x : Reg) (kk : Byte)
  /-- `SE Vx, Vy` (R136) -/
  | seReg (x y : Reg)
  /-- `LD Vx, kk` (R150) -/
  | ldImm (x : Reg) (kk : Byte)
  /-- `ADD Vx, kk` (R151) -/
  | addImm (x : Reg) (kk : Byte)
  /-- `LD Vx, Vy` (R152) -/
  | ldReg (x y : Reg)
  /-- `OR Vx, Vy` (R153) -/
  | orReg (x y : Reg)
  /-- `AND Vx, Vy` (R154) -/
  | andReg (x y : Reg)
  /-- `XOR Vx, Vy` (R155) -/
  | xorReg (x y : Reg)
  /-- `ADD Vx, Vy` (R157) -/
  | addReg (x y : Reg)
  /-- `SUB Vx, Vy` (R158) -/
  | sub (x y : Reg)
  /-- `SHR Vx, Vy` (R159) -/
  | shr (x y : Reg)
  /-- `SUBN Vx, Vy` (R160) -/
  | subn (x y : Reg)
  /-- `SHL Vx, Vy` (R161) -/
  | shl (x y : Reg)
  /-- `SNE Vx, Vy` (R137) -/
  | sneReg (x y : Reg)
  /-- `LD I, nnn` (R170) -/
  | ldI (nnn : BitVec 12)
  /-- `JP V0, nnn` (R140) -/
  | jpV0 (nnn : BitVec 12)
  /-- `RND Vx, kk` (R163) -/
  | rnd (x : Reg) (kk : Byte)
  /-- `DRW Vx, Vy, n` (R187) -/
  | drw (x y : Reg) (n : Fin 16)
  /-- `SKP Vx` (R203) -/
  | skp (x : Reg)
  /-- `SKNP Vx` (R204) -/
  | sknp (x : Reg)
  /-- `LD Vx, DT` (R200) -/
  | ldVxDt (x : Reg)
  /-- `LD Vx, K` (R206) -/
  | ldVxK (x : Reg)
  /-- `LD DT, Vx` (R201) -/
  | ldDtVx (x : Reg)
  /-- `LD ST, Vx` (R202) -/
  | ldStVx (x : Reg)
  /-- `ADD I, Vx` (R171) -/
  | addI (x : Reg)
  /-- `LD F, Vx` (R172) -/
  | ldF (x : Reg)
  /-- `LD B, Vx` (R173) -/
  | ldB (x : Reg)
  /-- `LD [I], Vx` (R174) -/
  | stRegs (x : Reg)
  /-- `LD Vx, [I]` (R175) -/
  | ldRegs (x : Reg)
  deriving DecidableEq, Repr

end Sys2Proof
end

