-- ==== Sys2Proof/WellFormed.lean ====
section
/-! DEFINITION. What is well formed. The fields of an instruction hold exactly the values their bits can hold and
no value is reserved (spec 30_encoding.md R83, R90), so every term of `Instr` is well formed by its type. What can be
ill formed is a word, which may match no row of the opcode table (R84, R88), and a program, which may be too long
(spec 70_reset_and_hazards.md R275). The table here is written from R84's mask and match columns, the decoder from
R86's case tree: that they agree is a statement. -/

namespace Sys2Proof

/-- One row of R84: the spec's name of the kind, the bits that are compared, and their values. -/
structure OpcodeRow where
  kind : String
  mask : Word
  pattern : Word
  deriving DecidableEq, Repr

/-- "A word `w` is of kind `k` exactly when `w AND mask(k) = match(k)`" (R84). -/
def OpcodeRow.covers (r : OpcodeRow) (w : Word) : Bool := w &&& r.mask == r.pattern

/-- The table of R84. -/
def opcodeTable : List OpcodeRow :=
  [⟨"CLS", 0xF0FF, 0x00E0⟩, ⟨"RET", 0xF0FF, 0x00EE⟩, ⟨"JP", 0xF000, 0x1000⟩, ⟨"CALL", 0xF000, 0x2000⟩,
   ⟨"SE_IMM", 0xF000, 0x3000⟩, ⟨"SNE_IMM", 0xF000, 0x4000⟩, ⟨"SE_REG", 0xF00F, 0x5000⟩,
   ⟨"LD_IMM", 0xF000, 0x6000⟩, ⟨"ADD_IMM", 0xF000, 0x7000⟩] ++
  [⟨"LD_REG", 0xF00F, 0x8000⟩, ⟨"OR", 0xF00F, 0x8001⟩, ⟨"AND", 0xF00F, 0x8002⟩, ⟨"XOR", 0xF00F, 0x8003⟩,
   ⟨"ADD_REG", 0xF00F, 0x8004⟩, ⟨"SUB", 0xF00F, 0x8005⟩, ⟨"SHR", 0xF00F, 0x8006⟩, ⟨"SUBN", 0xF00F, 0x8007⟩,
   ⟨"SHL", 0xF00F, 0x800E⟩] ++
  [⟨"SNE_REG", 0xF00F, 0x9000⟩, ⟨"LD_I", 0xF000, 0xA000⟩, ⟨"JP_V0", 0xF000, 0xB000⟩, ⟨"RND", 0xF000, 0xC000⟩,
   ⟨"DRW", 0xF000, 0xD000⟩, ⟨"SKP", 0xF0FF, 0xE09E⟩, ⟨"SKNP", 0xF0FF, 0xE0A1⟩] ++
  [⟨"LD_VX_DT", 0xF0FF, 0xF007⟩, ⟨"LD_VX_K", 0xF0FF, 0xF00A⟩, ⟨"LD_DT_VX", 0xF0FF, 0xF015⟩,
   ⟨"LD_ST_VX", 0xF0FF, 0xF018⟩, ⟨"ADD_I", 0xF0FF, 0xF01E⟩, ⟨"LD_F", 0xF0FF, 0xF029⟩, ⟨"LD_B", 0xF0FF, 0xF033⟩,
   ⟨"ST_REGS", 0xF0FF, 0xF055⟩, ⟨"LD_REGS", 0xF0FF, 0xF065⟩]

/-- The row name (R84, column `kind`) that a constructor stands for. -/
def Instr.kind : Instr → String
  | .cls => "CLS"
  | .ret => "RET"
  | .jp _ => "JP"
  | .call _ => "CALL"
  | .seImm _ _ => "SE_IMM"
  | .sneImm _ _ => "SNE_IMM"
  | .seReg _ _ => "SE_REG"
  | .ldImm _ _ => "LD_IMM"
  | .addImm _ _ => "ADD_IMM"
  | .ldReg _ _ => "LD_REG"
  | .orReg _ _ => "OR"
  | .andReg _ _ => "AND"
  | .xorReg _ _ => "XOR"
  | .addReg _ _ => "ADD_REG"
  | .sub _ _ => "SUB"
  | .shr _ _ => "SHR"
  | .subn _ _ => "SUBN"
  | .shl _ _ => "SHL"
  | .sneReg _ _ => "SNE_REG"
  | .ldI _ => "LD_I"
  | .jpV0 _ => "JP_V0"
  | .rnd _ _ => "RND"
  | .drw _ _ _ => "DRW"
  | .skp _ => "SKP"
  | .sknp _ => "SKNP"
  | .ldVxDt _ => "LD_VX_DT"
  | .ldVxK _ => "LD_VX_K"
  | .ldDtVx _ => "LD_DT_VX"
  | .ldStVx _ => "LD_ST_VX"
  | .addI _ => "ADD_I"
  | .ldF _ => "LD_F"
  | .ldB _ => "LD_B"
  | .stRegs _ => "ST_REGS"
  | .ldRegs _ => "LD_REGS"

/-- A word that some row of R84 covers; any other word is Invalid (R88). -/
def wellFormedWord (w : Word) : Bool := opcodeTable.any (·.covers w)

/-- A program that fits the memory from 0x200 on (R51, R275): at most 3584 bytes. -/
def wellFormedProgram (bytes : List Byte) : Bool := decide (bytes.length ≤ 3584)

end Sys2Proof
end

