-- ==== Sys2Proof/Decode.lean ====
section
/-! DEFINITION. The Decoder (spec 30_encoding.md R86), total on any bytes, and after it the encoder, written from the
formats of R81, R82 and the patterns of R84. -/

namespace Sys2Proof

/-- Why the Decoder gives no instruction. -/
inductive Reject where
  /-- Fewer than two bytes: no whole word (R80). -/
  | truncated
  /-- "`word == 0` is always Invalid" (R89). -/
  | zeroWord
  /-- A word that matches no row (R88). -/
  | invalidWord (w : Word)
  deriving DecidableEq, Repr

/-- The big-endian pair of bytes (R55, R80): the byte at the lower address is the high byte. -/
def wordOfBytes (hi lo : Byte) : Word := BitVec.ofNat 16 (hi.toNat * 256 + lo.toNat)

/-- The high byte of a word, which stands at the lower address (R80). -/
def highByte (w : Word) : Byte := BitVec.ofNat 8 (w.toNat / 256)

/-- The low byte of a word. -/
def lowByte (w : Word) : Byte := BitVec.ofNat 8 w.toNat

/-- `op = w[15:12]` (R81). -/
def fieldOp (w : Word) : Nat := w.toNat / 4096

/-- `x = w[11:8]` (R81). -/
def fieldX (w : Word) : Reg := ⟨w.toNat / 256 % 16, Nat.mod_lt _ (by decide)⟩

/-- `y = w[7:4]` (R81). -/
def fieldY (w : Word) : Reg := ⟨w.toNat / 16 % 16, Nat.mod_lt _ (by decide)⟩

/-- `n = w[3:0]` (R81). -/
def fieldN (w : Word) : Fin 16 := ⟨w.toNat % 16, Nat.mod_lt _ (by decide)⟩

/-- `kk = w[7:0]` (R81). -/
def fieldKK (w : Word) : Byte := BitVec.ofNat 8 w.toNat

/-- `nnn = w[11:0]` (R81). -/
def fieldNNN (w : Word) : BitVec 12 := BitVec.ofNat 12 w.toNat

/-- Group 0: by the low byte; `w[11:8]` is not consulted (R86, R87). -/
def decodeGroup0 (w : Word) : Except Reject Instr :=
  match (fieldKK w).toNat with
  | 0xE0 => .ok .cls
  | 0xEE => .ok .ret
  | _ => .error (.invalidWord w)

/-- Group 8: by the low nibble (R86). -/
def decodeGroup8 (w : Word) : Except Reject Instr :=
  match (fieldN w).val with
  | 0x0 => .ok (.ldReg (fieldX w) (fieldY w))
  | 0x1 => .ok (.orReg (fieldX w) (fieldY w))
  | 0x2 => .ok (.andReg (fieldX w) (fieldY w))
  | 0x3 => .ok (.xorReg (fieldX w) (fieldY w))
  | 0x4 => .ok (.addReg (fieldX w) (fieldY w))
  | 0x5 => .ok (.sub (fieldX w) (fieldY w))
  | 0x6 => .ok (.shr (fieldX w) (fieldY w))
  | 0x7 => .ok (.subn (fieldX w) (fieldY w))
  | 0xE => .ok (.shl (fieldX w) (fieldY w))
  | _ => .error (.invalidWord w)

/-- Group E: by the low byte (R86). -/
def decodeGroupE (w : Word) : Except Reject Instr :=
  match (fieldKK w).toNat with
  | 0x9E => .ok (.skp (fieldX w))
  | 0xA1 => .ok (.sknp (fieldX w))
  | _ => .error (.invalidWord w)

/-- Group F: by the low byte (R86). -/
def decodeGroupF (w : Word) : Except Reject Instr :=
  match (fieldKK w).toNat with
  | 0x07 => .ok (.ldVxDt (fieldX w))
  | 0x0A => .ok (.ldVxK (fieldX w))
  | 0x15 => .ok (.ldDtVx (fieldX w))
  | 0x18 => .ok (.ldStVx (fieldX w))
  | 0x1E => .ok (.addI (fieldX w))
  | 0x29 => .ok (.ldF (fieldX w))
  | 0x33 => .ok (.ldB (fieldX w))
  | 0x55 => .ok (.stRegs (fieldX w))
  | 0x65 => .ok (.ldRegs (fieldX w))
  | _ => .error (.invalidWord w)

/-- `decode(w)` of R86: the zero test, the top nibble, then the low byte or the low nibble. -/
def decodeWord (w : Word) : Except Reject Instr :=
  if w = 0 then .error .zeroWord
  else
    match fieldOp w with
    | 0x0 => decodeGroup0 w
    | 0x1 => .ok (.jp (fieldNNN w))
    | 0x2 => .ok (.call (fieldNNN w))
    | 0x3 => .ok (.seImm (fieldX w) (fieldKK w))
    | 0x4 => .ok (.sneImm (fieldX w) (fieldKK w))
    | 0x5 => if (fieldN w).val = 0 then .ok (.seReg (fieldX w) (fieldY w)) else .error (.invalidWord w)
    | 0x6 => .ok (.ldImm (fieldX w) (fieldKK w))
    | 0x7 => .ok (.addImm (fieldX w) (fieldKK w))
    | 0x8 => decodeGroup8 w
    | 0x9 => if (fieldN w).val = 0 then .ok (.sneReg (fieldX w) (fieldY w)) else .error (.invalidWord w)
    | 0xA => .ok (.ldI (fieldNNN w))
    | 0xB => .ok (.jpV0 (fieldNNN w))
    | 0xC => .ok (.rnd (fieldX w) (fieldKK w))
    | 0xD => .ok (.drw (fieldX w) (fieldY w) (fieldN w))
    | 0xE => decodeGroupE w
    | 0xF => decodeGroupF w
    | _ => .error (.invalidWord w)

/-- Decoding from bytes: the first two are the word, high byte first (R80); the rest is given back. -/
def decodeBytes : List Byte → Except Reject (Instr × List Byte)
  | hi :: lo :: rest =>
    match decodeWord (wordOfBytes hi lo) with
    | .ok i => .ok (i, rest)
    | .error e => .error e
  | _ => .error .truncated

/-- Format NNN (R82): the top nibble and a 12-bit address. -/
def encodeNNN (op : Nat) (nnn : BitVec 12) : Word := BitVec.ofNat 16 (op * 4096 + nnn.toNat)

/-- Formats XKK and XFN (R82): the top nibble, `x`, and a low byte. -/
def encodeXKK (op : Nat) (x : Reg) (kk : Byte) : Word := BitVec.ofNat 16 (op * 4096 + x.val * 256 + kk.toNat)

/-- Format XYN (R82): the top nibble, `x`, `y`, and a low nibble. -/
def encodeXYN (op : Nat) (x y : Reg) (n : Fin 16) : Word :=
  BitVec.ofNat 16 (op * 4096 + x.val * 256 + y.val * 16 + n.val)

/-- The word of an instruction, from the patterns of R84. `CLS` and `RET` are written with the ignored nibble 0
(log 12). -/
def encode : Instr → Word
  | .cls => 0x00E0
  | .ret => 0x00EE
  | .jp nnn => encodeNNN 0x1 nnn
  | .call nnn => encodeNNN 0x2 nnn
  | .seImm x kk => encodeXKK 0x3 x kk
  | .sneImm x kk => encodeXKK 0x4 x kk
  | .seReg x y => encodeXYN 0x5 x y 0x0
  | .ldImm x kk => encodeXKK 0x6 x kk
  | .addImm x kk => encodeXKK 0x7 x kk
  | .ldReg x y => encodeXYN 0x8 x y 0x0
  | .orReg x y => encodeXYN 0x8 x y 0x1
  | .andReg x y => encodeXYN 0x8 x y 0x2
  | .xorReg x y => encodeXYN 0x8 x y 0x3
  | .addReg x y => encodeXYN 0x8 x y 0x4
  | .sub x y => encodeXYN 0x8 x y 0x5
  | .shr x y => encodeXYN 0x8 x y 0x6
  | .subn x y => encodeXYN 0x8 x y 0x7
  | .shl x y => encodeXYN 0x8 x y 0xE
  | .sneReg x y => encodeXYN 0x9 x y 0x0
  | .ldI nnn => encodeNNN 0xA nnn
  | .jpV0 nnn => encodeNNN 0xB nnn
  | .rnd x kk => encodeXKK 0xC x kk
  | .drw x y n => encodeXYN 0xD x y n
  | .skp x => encodeXKK 0xE x 0x9E
  | .sknp x => encodeXKK 0xE x 0xA1
  | .ldVxDt x => encodeXKK 0xF x 0x07
  | .ldVxK x => encodeXKK 0xF x 0x0A
  | .ldDtVx x => encodeXKK 0xF x 0x15
  | .ldStVx x => encodeXKK 0xF x 0x18
  | .addI x => encodeXKK 0xF x 0x1E
  | .ldF x => encodeXKK 0xF x 0x29
  | .ldB x => encodeXKK 0xF x 0x33
  | .stRegs x => encodeXKK 0xF x 0x55
  | .ldRegs x => encodeXKK 0xF x 0x65

/-- The two bytes of an instruction as memory holds them (R80). -/
def encodeBytes (i : Instr) : List Byte := [highByte (encode i), lowByte (encode i)]

/-- The instruction the Decoder reads from the word `w` of a table row, laid out as memory holds it. The bits at and
above `nbits` are 0. -/
def decodeTableWord (nbits w : Nat) : Option Instr :=
  let word : Word := BitVec.ofNat 16 (w % 2 ^ nbits)
  match decodeBytes [highByte word, lowByte word] with
  | .ok (i, _) => some i
  | .error _ => none

end Sys2Proof
end

