-- ==== Sys2Proof/Config.lean ====
section
/-! DEFINITION. What is fixed for one machine: the straps (spec 00_scope.md R9, R10), the stack depth, the font
image, and the free values. The constants that the document fixes once and for all (R8: 4096 bytes, 64 by 32
pixels, 1000 history slots, program base 0x200) stand as numerals where they are used. -/

namespace Sys2Proof

/-- Which write remains in `v[15]` when an instruction writes a result and a flag there (R9, R121). -/
inductive VfPriority where
  | flag
  | result
  deriving DecidableEq, Repr, Inhabited

/-- The static configuration parameters that the spec leaves OPEN (R9, R36). They never change at run time (R10). -/
structure Straps where
  /-- `QUIRK_SHIFT_VY`: `SHR` and `SHL` shift `v[y]` and not `v[x]` (R159, R161). -/
  quirkShiftVy : Bool
  /-- `QUIRK_INDEX_INC`: the block moves advance `ir` by `x + 1` (R174, R175). -/
  quirkIndexInc : Bool
  /-- `VF_WRITE_PRIORITY` (R121). -/
  vfWritePriority : VfPriority
  deriving DecidableEq, Repr, Inhabited

namespace Config

/-- The straps of the machine at hand. DESIGN CHOICE (log 1): the spec gives no default, so this has no body and
no proof can use a value of it. -/
opaque straps : Straps

/-- The byte that the k-th executed `RND` draws (R42, R163). DESIGN CHOICE (log 6): the spec gives no generator,
so this has no body and no proof can use a value of it. -/
opaque randomByte : Nat → Byte

/-- `STACK_DEPTH` (R9, R26; the spec's decision D3). -/
abbrev stackDepth : Nat := 16

/-- `FONT_ROM` (R52): sixteen sprites of five bytes, digit `d` at offset `5 * d`. -/
def fontRom : List Byte :=
  [0xF0, 0x90, 0x90, 0x90, 0xF0, 0x20, 0x60, 0x20, 0x20, 0x70, 0xF0, 0x10, 0xF0, 0x80, 0xF0, 0xF0, 0x10, 0xF0, 0x10, 0xF0] ++
  [0x90, 0x90, 0xF0, 0x10, 0x10, 0xF0, 0x80, 0xF0, 0x10, 0xF0, 0xF0, 0x80, 0xF0, 0x90, 0xF0, 0xF0, 0x10, 0x20, 0x40, 0x40] ++
  [0xF0, 0x90, 0xF0, 0x90, 0xF0, 0xF0, 0x90, 0xF0, 0x10, 0xF0, 0xF0, 0x90, 0xF0, 0x90, 0x90, 0xE0, 0x90, 0xE0, 0x90, 0xE0] ++
  [0xF0, 0x80, 0x80, 0x80, 0xF0, 0xE0, 0x90, 0x90, 0x90, 0xE0, 0xF0, 0x80, 0xF0, 0x80, 0xF0, 0xF0, 0x80, 0xF0, 0x80, 0x80]

end Config

end Sys2Proof
end

