-- ==== Sys2Proof/Machine/State.lean ====
section
/-! DEFINITION. The state of the machine as plain data (spec 10_state.md): the Machine State of which the history
holds copies (R20), the Memory (R30), the Engine state (R31 to R36), the straps (R9), and the model's own fields
for inputs and free values (logs 4, 5, 6). -/

namespace Sys2Proof.Machine

/-- The display bitmap (R29): 32 rows from the top, each a row of 64 pixels whose most significant bit is the
leftmost column (log 13). -/
abbrev Display := Vector (BitVec 64) 32

/-- The Machine State (R20): what instructions read and write and what a history slot holds. -/
structure MachineState where
  /-- Program counter (R21, R22). -/
  pc : Word
  /-- Index register (R23). -/
  ir : Word
  /-- Delay timer (R24). -/
  dt : Byte
  /-- Sound timer (R24). -/
  st : Byte
  /-- Stack pointer: the number of return addresses on the stack (R25). -/
  sp : Byte
  /-- General registers; `v[15]` is also the flag (R27, R28). -/
  v : Vector Byte 16
  /-- Call stack; a popped slot keeps its value (R26). -/
  stack : Vector Word Config.stackDepth
  /-- Display bitmap (R29). -/
  fb : Display
  deriving DecidableEq, Repr

/-- The fresh Machine State (R38). -/
def MachineState.fresh : MachineState where
  pc := 0x200
  ir := 0
  dt := 0
  st := 0
  sp := 0
  v := Vector.replicate 16 0
  stack := Vector.replicate Config.stackDepth 0
  fb := Vector.replicate 32 0

/-- The Memory's cells that differ from the power-on image, by rising address (R30, R270, log 10). -/
abbrev Memory := List Host.Cell

/-- The history ring's slots that have been written since power-on, by rising index (R31, R240, log 7). -/
abbrev History := List (Nat × MachineState)

/-- The driver's commands (R40). `EXEC_TICK` and `STEP_FWD` carry the level that the polled key input has during
them (R41, R244, log 5). -/
inductive Command where
  /-- `EXEC_TICK` (R246) -/
  | execTick (key : Option Key)
  /-- `TIMER_TICK` (R230) -/
  | timerTick
  /-- `TOGGLE_PAUSE` (R241) -/
  | togglePause
  /-- `STEP_FWD` (R247) -/
  | stepFwd (key : Option Key)
  /-- `STEP_BACK` (R248) -/
  | stepBack
  /-- `RESET` (R271) -/
  | reset
  /-- `KEY_PRESSED(value)` (R207) -/
  | keyPressed (value : Key)
  /-- `LOAD_PROGRAM(bytes)` (R272) -/
  | loadProgram (bytes : List Byte)
  deriving DecidableEq, Repr

/-- Everything the machine holds. -/
structure State where
  /-- The history ring `hist[0..999]` (R31). -/
  hist : History
  /-- Ring index of the most recently executed state (R31). -/
  head : Fin 1000
  /-- Ring index of the current state, which every cycle and every reader sees (R31, R242). -/
  current : Fin 1000
  /-- How many states have been committed since reset (R31, R240). -/
  totalCycles : Nat
  /-- `mem[0..4095]` (R30). -/
  mem : Memory
  /-- `pristine[0..4095]`, what `RESET` restores (R30). -/
  pristine : Memory
  /-- The pause flag (R32). -/
  paused : Bool
  /-- The keyboard-wait flag (R33). -/
  waiting : Bool
  /-- The latched key press, `none` when the latch is not valid (R34). -/
  keyLatch : Option Key
  /-- A `STEP_FWD` was accepted since the last `TIMER_TICK` (R35). -/
  stepPending : Bool
  /-- The static straps (R10, R36). -/
  straps : Straps
  /-- The model's own: the level of the polled key input during the present command (R41, log 5). -/
  keyNow : Option Key
  /-- The model's own: how many random bytes have been drawn (R42, log 6). -/
  draws : Nat
  /-- The model's own: the driver's commands not yet taken, oldest first (R40, log 4). -/
  commands : List Command
  deriving DecidableEq, Repr

/-- Why the machine stops. The hardware has no exceptions (R220): every error of R221 is a next state. -/
inductive Fault where
  /-- Raised by `RET` and `CALL` when `sp` is above the stack depth, to which the spec gives no meaning
  (R25: `0 <= sp <= STACK_DEPTH`). Safe: no run reaches such a state (log 8). -/
  | stackPointerAboveDepth
  deriving DecidableEq, Repr

/-- Why an instruction is given no meaning. -/
inductive Refusal where
  /-- Raised by the dispatch for an instruction without a meaning; every instruction has one, so no arm raises it.
  Safe. -/
  | notModelled (mnemonic : String)
  deriving DecidableEq, Repr

/-- Power-on (R38, R270), before any command: slot 0 of the history holds the fresh Machine State, memory is the
power-on image. The straps are the machine's own (log 1); no key, no draw, no pending command (logs 4, 5, 6). -/
def State.reset : State where
  hist := [(0, MachineState.fresh)]
  head := 0
  current := 0
  totalCycles := 0
  mem := []
  pristine := []
  paused := false
  waiting := false
  keyLatch := none
  stepPending := false
  straps := Config.straps
  keyNow := none
  draws := 0
  commands := []

end Sys2Proof.Machine
end

