-- ==== Sys2Proof/Machine/Ops.lean ====
section
/-! DEFINITION. The named operations over memory, the history ring and the state. The hardware has no exception
entry and no exception return (spec 60_exceptions.md R220, R225, R226); what stands in their place is the one shared
outcome `haltInPlace` (R117). -/

namespace Sys2Proof.Machine

/-! ### Sparse data by key -/

/-- What a list of keyed entries holds at a key. -/
def sparseFind {α : Type} : List (Nat × α) → Nat → Option α
  | [], _ => none
  | (k, x) :: rest, a => if k = a then some x else sparseFind rest a

/-- Put an entry at a key, keeping the keys rising. -/
def sparseInsert {α : Type} : List (Nat × α) → Nat → α → List (Nat × α)
  | [], a, b => [(a, b)]
  | (k, x) :: rest, a, b =>
    if a < k then (a, b) :: (k, x) :: rest
    else if a = k then (a, b) :: rest
    else (k, x) :: sparseInsert rest a b

/-- Drop the entry at a key. -/
def sparseErase {α : Type} (l : List (Nat × α)) (a : Nat) : List (Nat × α) := l.filter fun e => e.1 != a

/-- The keys rise strictly. -/
abbrev SparseSorted {α : Type} (l : List (Nat × α)) : Prop := l.Pairwise fun e f => e.1 < f.1

/-! ### Memory (20_memory.md) -/

/-- The power-on image (R51, R60, R270): the font, and 0 elsewhere. This is what an unlisted address reads as. -/
def powerOnByte (a : Nat) : Byte := Config.fontRom.getD a 0

/-- `MemRead(addr, 1)` (R53). -/
def memRead (m : Memory) (a : Nat) : Byte := if a < 4096 then (sparseFind m a).getD (powerOnByte a) else 0

/-- `MemWrite(addr, 1, b)` (R54). A byte equal to the power-on image is not listed. -/
def memWrite (m : Memory) (a : Nat) (b : Byte) : Memory :=
  if a < 4096 then
    if b = powerOnByte a then sparseErase m a else sparseInsert m a b
  else m

/-- `MemRead(addr, 2)`: the big-endian pair, each byte range-checked on its own (R55). -/
def memReadWord (m : Memory) (a : Nat) : Word := wordOfBytes (memRead m a) (memRead m (a + 1))

/-- Byte writes at ascending addresses (R56). -/
def memWriteBytes (m : Memory) (a : Nat) : List Byte → Memory
  | [] => m
  | b :: rest => memWriteBytes (memWrite m a b) (a + 1) rest

/-- The canonical form: addresses rise strictly, stay below 4096, and no cell holds what it would read as
unlisted. -/
abbrev Memory.wf (m : Memory) : Prop := SparseSorted m ∧ ∀ c ∈ m, c.1 < 4096 ∧ c.2 ≠ powerOnByte c.1

/-! ### The history ring (60_exceptions.md section 7) -/

/-- `hist[i]`; a slot never written reads as the fresh Machine State (log 7). -/
def histRead (h : History) (i : Nat) : MachineState := (sparseFind h i).getD MachineState.fresh

/-- `hist[i] <- m`. -/
def histWrite (h : History) (i : Nat) (m : MachineState) : History := sparseInsert h i m

/-- The listed slots are ring indexes, each listed once. -/
abbrev History.wf (h : History) : Prop := SparseSorted h ∧ ∀ e ∈ h, e.1 < 1000

/-- `(i + 1) mod 1000`. -/
def ringNext (i : Fin 1000) : Fin 1000 := ⟨(i.val + 1) % 1000, Nat.mod_lt _ (by decide)⟩

/-- `(i - 1) mod 1000`. -/
def ringPrev (i : Fin 1000) : Fin 1000 := ⟨(i.val + 999) % 1000, Nat.mod_lt _ (by decide)⟩

/-- `hist[i]` of a state. -/
def State.slot (s : State) (i : Fin 1000) : MachineState := histRead s.hist i.val

/-- The current state `hist[current]` (R242). -/
def State.cur (s : State) : MachineState := s.slot s.current

/-- `dist = (head - current) mod 1000` (R243). -/
def State.dist (s : State) : Nat := (s.head.val + 1000 - s.current.val) % 1000

/-- Live: `current = head` (R243). Replaying is its negation. -/
abbrev State.live (s : State) : Prop := s.current = s.head

/-- The commit of R245: the new Machine State goes into the next slot, which becomes head and current. -/
def State.commit (s : State) (m : MachineState) : State :=
  { s with
    hist := histWrite s.hist (ringNext s.head).val m
    head := ringNext s.head
    current := ringNext s.head
    totalCycles := s.totalCycles + 1 }

/-- The in-place edit of the current slot, which only the timer decrement makes (R230, C1). -/
def State.editCur (s : State) (m : MachineState) : State := { s with hist := histWrite s.hist s.current.val m }

/-- Replace the Memory. -/
def State.withMem (s : State) (m : Memory) : State := { s with mem := m }

/-- Set the keyboard-wait flag and the key latch. -/
def State.withKeyWait (s : State) (waiting : Bool) (latch : Option Key) : State :=
  { s with waiting := waiting, keyLatch := latch }

/-- One more random byte has been drawn. -/
def State.afterDraw (s : State) : State := { s with draws := s.draws + 1 }

/-! ### Outcomes of a cycle (40_engine_cycle.md) -/

/-- `return Update` (R116, R245): the instruction completed and its new Machine State is committed. -/
def update (s : State) (m : MachineState) : Host.Outcome State Fault Refusal := .next (s.commit m)

/-- `return NoUpdate` with nothing else changed (R117): the shared effect of every error of the halt kind. Nothing
is saved and control goes nowhere: `pc` stays (R225). -/
def haltInPlace (s : State) : Host.Outcome State Fault Refusal := .next s

/-! ### The Machine State -/

/-- `pc <- pc + 2`, modulo 2^16 (R115, R22). -/
def MachineState.advance (m : MachineState) : MachineState := { m with pc := m.pc + 2 }

/-- `pc <- target` (R115). -/
def MachineState.jump (m : MachineState) (target : Word) : MachineState := { m with pc := target }

/-- The skip of R133: `pc <- pc + 4` if the condition holds, `pc <- pc + 2` if not. -/
def MachineState.skipIf (m : MachineState) (c : Bool) : MachineState := { m with pc := if c then m.pc + 4 else m.pc + 2 }

/-- `ir <- a`. -/
def MachineState.withIr (m : MachineState) (a : Word) : MachineState := { m with ir := a }

/-- Replace the display. -/
def MachineState.withFb (m : MachineState) (fb : Display) : MachineState := { m with fb := fb }

/-- `stack[i]`; 0 for an index that is no slot, which no instruction reads. -/
def MachineState.stackAt (m : MachineState) (i : Nat) : Word := if h : i < Config.stackDepth then m.stack[i] else 0

/-- Push a return address: `stack[sp] <- a; sp <- sp + 1` (R132), for `sp` below the depth. -/
def MachineState.push (m : MachineState) (a : Word) : MachineState :=
  { m with stack := m.stack.setIfInBounds m.sp.toNat a, sp := m.sp + 1 }

/-- Pop: `sp <- sp - 1; pc <- stack[sp]` (R130), for `sp` above 0. The popped slot keeps its value (R26). -/
def MachineState.popToPc (m : MachineState) : MachineState :=
  { m with sp := m.sp - 1, pc := m.stackAt (m.sp.toNat - 1) }

end Sys2Proof.Machine
end

