-- ==== Sys2Proof/Machine/Operands.lean ====
section
/-! DEFINITION. The operand forms (spec 30_encoding.md R83, 43_index_memory.md R176): registers, zero-extended
immediates, the base-plus-offset data address, the font sprite address, the decimal digits, and sprite rows. -/

namespace Sys2Proof.Machine

/-- Read `v[x]` (R27). -/
def MachineState.reg (m : MachineState) (x : Reg) : Byte := m.v[x.val]

/-- `v[x] <- b` (R27). -/
def MachineState.setReg (m : MachineState) (x : Reg) (b : Byte) : MachineState := { m with v := m.v.set x.val b }

/-- The number of the flag register VF (R28). -/
abbrev vf : Reg := 15

/-- `zext_16(nnn)` (R83). -/
def zextAddr (nnn : BitVec 12) : Word := nnn.setWidth 16

/-- `zext_16(v[x])` (R83). -/
def zextByte (b : Byte) : Word := b.setWidth 16

/-- `zext_8` of a key value (R203, R206). -/
def zextKey (k : Key) : Byte := k.setWidth 8

/-- The one data addressing mode (R176): `ir` plus an offset, as a natural number that does not wrap (R14). -/
def MachineState.dataAddr (m : MachineState) (offset : Nat) : Nat := m.ir.toNat + offset

/-- `fontSpriteAddress(d) = 5 * d` (R52), for the low nibble of a register (R172). -/
def fontSpriteAddress (b : Byte) : Word := BitVec.ofNat 16 (5 * (b.toNat % 16))

/-- The hundreds, tens and ones digits of a byte, most significant first (R173). -/
def bcdDigits (b : Byte) : List Byte := [b / 100, b / 10 % 10, b % 10]

/-- `v[0..x]` in ascending order (R174). -/
def MachineState.regsUpTo (m : MachineState) (x : Reg) : List Byte := m.v.toList.take (x.val + 1)

/-- `v[i] <- MemRead(a + i, 1)` for `i = 0 .. x` (R175). -/
def MachineState.loadRegs (m : MachineState) (mem : Memory) (x : Reg) : MachineState :=
  { m with v := Vector.ofFn fun i => if i.val ≤ x.val then memRead mem (m.dataAddr i.val) else m.v[i.val] }

/-- The quirk "index auto-increment" (R174, R175): `ir <- (ir + x + 1) mod 65536`, or `ir` unchanged. -/
def MachineState.indexInc (m : MachineState) (quirk : Bool) (x : Reg) : MachineState :=
  if quirk then { m with ir := m.ir + BitVec.ofNat 16 (x.val + 1) } else m

/-- The source of a shift (R159, R161): `v[y]` under `QUIRK_SHIFT_VY`, else `v[x]`. -/
def MachineState.shiftSource (m : MachineState) (quirk : Bool) (x y : Reg) : Byte := if quirk then m.reg y else m.reg x

/-- Whether the polled key is the one a register names (R203, R205): all 8 bits are compared and `none` matches
nothing. -/
def keyPressedIs (keyNow : Option Key) (b : Byte) : Bool :=
  match keyNow with
  | none => false
  | some k => zextKey k == b

/-! ### Sprites (44_display.md) -/

/-- Row `py` of the display, 0 outside the grid. -/
def displayRow (fb : Display) (py : Nat) : BitVec 64 := if h : py < 32 then fb[py] else 0

/-- `fb[py][px]` (R29); the leftmost column is the most significant bit of its row (log 13). -/
def displayPixel (fb : Display) (px py : Nat) : Bool := (displayRow fb py).getMsbD px

/-- The starting coordinate (R188): reset to 0, not taken modulo, when outside the grid. -/
def startCoord (size : Nat) (b : Byte) : Nat := if b.toNat < size then b.toNat else 0

/-- One row byte of a sprite at starting column `x0` (R186, R189): bit 7 leftmost, columns past 63 dropped. -/
def spriteRow (x0 : Nat) (b : Byte) : BitVec 64 := (b.setWidth 64 <<< 56) >>> x0

/-- The pixels of display row `py` that a sprite of `n` rows at (`x0`, `y0`) with its bytes at `a` turns over (R187):
row byte `r` falls on row `y0 + r`. -/
def spriteMask (mem : Memory) (a x0 y0 n py : Nat) : BitVec 64 :=
  if y0 ≤ py ∧ py < y0 + n then spriteRow x0 (memRead mem (a + (py - y0))) else 0

/-- XOR a mask into every row (R187). Rows past 31 do not exist and are dropped (R189). -/
def xorDisplay (fb : Display) (mask : Nat → BitVec 64) : Display := Vector.ofFn fun py => fb[py.val] ^^^ mask py.val

end Sys2Proof.Machine
end

