-- ==== Sys2Proof/Machine/Flags.lean ====
section
/-! DEFINITION. Every flag computation (spec 10_state.md R28): the carry, the strict comparison, the bit shifted out,
the sprite collision, and the write of a result and a flag (40_engine_cycle.md R121). -/

namespace Sys2Proof.Machine

/-- A flag as the byte VF receives: 0 or 1. -/
def flagByte (f : Bool) : Byte := if f then 1 else 0

/-- Carry of `ADD Vx, Vy` (R157): the 9-bit sum exceeds 255. -/
def carryFlag (a b : Byte) : Bool := decide (255 < a.toNat + b.toNat)

/-- The flag of `SUB` and `SUBN` (R158, R160): STRICT greater-than. -/
def greaterFlag (a b : Byte) : Bool := decide (b.toNat < a.toNat)

/-- The bit `SHR` shifts out (R159): bit 0. -/
def shrFlag (src : Byte) : Bool := src.getLsbD 0

/-- The bit `SHL` shifts out (R161): bit 7. -/
def shlFlag (src : Byte) : Bool := src.getLsbD 7

/-- Collision (R187, R191): some set pixel of the grid is about to be cleared. -/
def collisionFlag (fb : Display) (mask : Nat → BitVec 64) : Bool :=
  (List.range 32).any fun py => displayRow fb py &&& mask py != 0

/-- `WriteResultAndFlag(x, res, flag)` (R121): the later write remains when `x = 15`. -/
def MachineState.writeResultAndFlag (m : MachineState) (p : VfPriority) (x : Reg) (res : Byte) (f : Bool) : MachineState :=
  match p with
  | .flag => (m.setReg x res).setReg vf (flagByte f)
  | .result => (m.setReg vf (flagByte f)).setReg x res

end Sys2Proof.Machine
end

