-- ==== Sys2Proof/Machine/Alu.lean ====
section
/-! DEFINITION. Register load, arithmetic, logic, shift and random instructions (spec 42_alu.md). Every one returns
Update and advances `pc` by 2. -/

namespace Sys2Proof.Machine

/-- The common end of this file's instructions without a flag: `v[x] <- b; pc <- pc + 2; return Update`. -/
def updateReg (s : State) (x : Reg) (b : Byte) : Host.Outcome State Fault Refusal :=
  update s (s.cur.setReg x b).advance

/-- The common end of the instructions with a flag: `WriteResultAndFlag; pc <- pc + 2; return Update`. -/
def updateRegFlag (s : State) (x : Reg) (res : Byte) (f : Bool) : Host.Outcome State Fault Refusal :=
  update s (s.cur.writeResultAndFlag s.straps.vfWritePriority x res f).advance

/-- `LD Vx, kk` (R150). -/
def execLdImm (x : Reg) (kk : Byte) (s : State) : Host.Outcome State Fault Refusal := updateReg s x kk

/-- `ADD Vx, kk` (R151): wraps; VF is not written. -/
def execAddImm (x : Reg) (kk : Byte) (s : State) : Host.Outcome State Fault Refusal :=
  updateReg s x (s.cur.reg x + kk)

/-- `LD Vx, Vy` (R152). -/
def execLdReg (x y : Reg) (s : State) : Host.Outcome State Fault Refusal := updateReg s x (s.cur.reg y)

/-- `OR Vx, Vy` (R153): VF is not written. -/
def execOrReg (x y : Reg) (s : State) : Host.Outcome State Fault Refusal :=
  updateReg s x (s.cur.reg x ||| s.cur.reg y)

/-- `AND Vx, Vy` (R154). -/
def execAndReg (x y : Reg) (s : State) : Host.Outcome State Fault Refusal :=
  updateReg s x (s.cur.reg x &&& s.cur.reg y)

/-- `XOR Vx, Vy` (R155). -/
def execXorReg (x y : Reg) (s : State) : Host.Outcome State Fault Refusal :=
  updateReg s x (s.cur.reg x ^^^ s.cur.reg y)

/-- `ADD Vx, Vy` (R157): VF is the carry. -/
def execAddReg (x y : Reg) (s : State) : Host.Outcome State Fault Refusal :=
  updateRegFlag s x (s.cur.reg x + s.cur.reg y) (carryFlag (s.cur.reg x) (s.cur.reg y))

/-- `SUB Vx, Vy` (R158): VF is `v[x] > v[y]`, strictly. -/
def execSub (x y : Reg) (s : State) : Host.Outcome State Fault Refusal :=
  updateRegFlag s x (s.cur.reg x - s.cur.reg y) (greaterFlag (s.cur.reg x) (s.cur.reg y))

/-- `SHR Vx, Vy` (R159): logical, by one bit. -/
def execShr (x y : Reg) (s : State) : Host.Outcome State Fault Refusal :=
  updateRegFlag s x (s.cur.shiftSource s.straps.quirkShiftVy x y >>> 1) (shrFlag (s.cur.shiftSource s.straps.quirkShiftVy x y))

/-- `SUBN Vx, Vy` (R160): VF is `v[y] > v[x]`, strictly. -/
def execSubn (x y : Reg) (s : State) : Host.Outcome State Fault Refusal :=
  updateRegFlag s x (s.cur.reg y - s.cur.reg x) (greaterFlag (s.cur.reg y) (s.cur.reg x))

/-- `SHL Vx, Vy` (R161): by one bit. -/
def execShl (x y : Reg) (s : State) : Host.Outcome State Fault Refusal :=
  updateRegFlag s x (s.cur.shiftSource s.straps.quirkShiftVy x y <<< 1) (shlFlag (s.cur.shiftSource s.straps.quirkShiftVy x y))

/-- `RND Vx, kk` (R163): the draw of this cycle, a free value, under the mask (log 6). -/
def execRnd (x : Reg) (kk : Byte) (s : State) : Host.Outcome State Fault Refusal :=
  updateReg s.afterDraw x (Config.randomByte s.draws &&& kk)

end Sys2Proof.Machine
end

