-- ==== Sys2Proof/Machine/Flow.lean ====
section
/-! DEFINITION. Control transfer and skips (spec 41_flow.md). -/

namespace Sys2Proof.Machine

/-- `RET` (R130): an empty stack halts in place. -/
def execRet (s : State) : Host.Outcome State Fault Refusal :=
  if s.cur.sp = 0 then haltInPlace s
  else if Config.stackDepth < s.cur.sp.toNat then .fault .stackPointerAboveDepth
  else update s s.cur.popToPc

/-- `JP nnn` (R131): a jump to its own address halts in place. -/
def execJp (nnn : BitVec 12) (s : State) : Host.Outcome State Fault Refusal :=
  if zextAddr nnn = s.cur.pc then haltInPlace s else update s (s.cur.jump (zextAddr nnn))

/-- `CALL nnn` (R132): a full stack halts in place; the pushed address is that of the next instruction. -/
def execCall (nnn : BitVec 12) (s : State) : Host.Outcome State Fault Refusal :=
  if s.cur.sp.toNat = Config.stackDepth then haltInPlace s
  else if Config.stackDepth < s.cur.sp.toNat then .fault .stackPointerAboveDepth
  else update s ((s.cur.push (s.cur.pc + 2)).jump (zextAddr nnn))

/-- `SE Vx, kk` (R134). -/
def execSeImm (x : Reg) (kk : Byte) (s : State) : Host.Outcome State Fault Refusal :=
  update s (s.cur.skipIf (s.cur.reg x == kk))

/-- `SNE Vx, kk` (R135). -/
def execSneImm (x : Reg) (kk : Byte) (s : State) : Host.Outcome State Fault Refusal :=
  update s (s.cur.skipIf (s.cur.reg x != kk))

/-- `SE Vx, Vy` (R136). -/
def execSeReg (x y : Reg) (s : State) : Host.Outcome State Fault Refusal :=
  update s (s.cur.skipIf (s.cur.reg x == s.cur.reg y))

/-- `SNE Vx, Vy` (R137). -/
def execSneReg (x y : Reg) (s : State) : Host.Outcome State Fault Refusal :=
  update s (s.cur.skipIf (s.cur.reg x != s.cur.reg y))

/-- `JP V0, nnn` (R140): a 16-bit sum; onto its own address it still commits. -/
def execJpV0 (nnn : BitVec 12) (s : State) : Host.Outcome State Fault Refusal :=
  update s (s.cur.jump (zextAddr nnn + zextByte (s.cur.reg 0)))

end Sys2Proof.Machine
end

