-- ==== Sys2Proof/Machine/Index.lean ====
section
/-! DEFINITION. Index register and memory instructions (spec 43_index_memory.md). Every one returns Update and
advances `pc` by 2; addresses outside memory are absorbed by `memRead` and `memWrite`. -/

namespace Sys2Proof.Machine

/-- `LD I, nnn` (R170). -/
def execLdI (nnn : BitVec 12) (s : State) : Host.Outcome State Fault Refusal :=
  update s (s.cur.withIr (zextAddr nnn)).advance

/-- `ADD I, Vx` (R171): modulo 65536; VF is not written. -/
def execAddI (x : Reg) (s : State) : Host.Outcome State Fault Refusal :=
  update s (s.cur.withIr (s.cur.ir + zextByte (s.cur.reg x))).advance

/-- `LD F, Vx` (R172): the sprite of the low nibble of `v[x]`. -/
def execLdF (x : Reg) (s : State) : Host.Outcome State Fault Refusal :=
  update s (s.cur.withIr (fontSpriteAddress (s.cur.reg x))).advance

/-- `LD B, Vx` (R173): the three decimal digits go to `ir`, `ir + 1`, `ir + 2`; `ir` is not changed. -/
def execLdB (x : Reg) (s : State) : Host.Outcome State Fault Refusal :=
  update (s.withMem (memWriteBytes s.mem (s.cur.dataAddr 0) (bcdDigits (s.cur.reg x)))) s.cur.advance

/-- `LD [I], Vx` (R174). -/
def execStRegs (x : Reg) (s : State) : Host.Outcome State Fault Refusal :=
  update (s.withMem (memWriteBytes s.mem (s.cur.dataAddr 0) (s.cur.regsUpTo x))) (s.cur.indexInc s.straps.quirkIndexInc x).advance

/-- `LD Vx, [I]` (R175). -/
def execLdRegs (x : Reg) (s : State) : Host.Outcome State Fault Refusal :=
  update s ((s.cur.loadRegs s.mem x).indexInc s.straps.quirkIndexInc x).advance

end Sys2Proof.Machine
end

