-- ==== Sys2Proof/Machine/Input.lean ====
section
/-! DEFINITION. Timer and keyboard instructions (spec 45_timers_keys.md). -/

namespace Sys2Proof.Machine

/-- `LD Vx, DT` (R200). -/
def execLdVxDt (x : Reg) (s : State) : Host.Outcome State Fault Refusal :=
  update s (s.cur.setReg x s.cur.dt).advance

/-- `LD DT, Vx` (R201). -/
def execLdDtVx (x : Reg) (s : State) : Host.Outcome State Fault Refusal :=
  update s { s.cur with dt := s.cur.reg x }.advance

/-- `LD ST, Vx` (R202). -/
def execLdStVx (x : Reg) (s : State) : Host.Outcome State Fault Refusal :=
  update s { s.cur with st := s.cur.reg x }.advance

/-- `SKP Vx` (R203). -/
def execSkp (x : Reg) (s : State) : Host.Outcome State Fault Refusal :=
  update s (s.cur.skipIf (keyPressedIs s.keyNow (s.cur.reg x)))

/-- `SKNP Vx` (R204). -/
def execSknp (x : Reg) (s : State) : Host.Outcome State Fault Refusal :=
  update s (s.cur.skipIf (!keyPressedIs s.keyNow (s.cur.reg x)))

/-- `LD Vx, K` (R206): with no latched key the cycle sets `waiting` and changes nothing else; with one it consumes
it. -/
def execLdVxK (x : Reg) (s : State) : Host.Outcome State Fault Refusal :=
  match s.keyLatch with
  | none => .next (s.withKeyWait true none)
  | some k => update (s.withKeyWait false none) (s.cur.setReg x (zextKey k)).advance

end Sys2Proof.Machine
end

