-- ==== Sys2Proof/Machine/Screen.lean ====
section
/-! DEFINITION. Display instructions (spec 44_display.md). -/

namespace Sys2Proof.Machine

/-- The mask `DRW` turns over in display row `py`, from the operands as they stand before the instruction (R187,
R120). -/
def drawMask (s : State) (x y : Reg) (n : Fin 16) (py : Nat) : BitVec 64 :=
  spriteMask s.mem (s.cur.dataAddr 0) (startCoord 64 (s.cur.reg x)) (startCoord 32 (s.cur.reg y)) n.val py

/-- `CLS` (R185). -/
def execCls (s : State) : Host.Outcome State Fault Refusal :=
  update s (s.cur.withFb (Vector.replicate 32 0)).advance

/-- `DRW Vx, Vy, n` (R187): XOR the sprite in; VF is the collision of the whole draw (R191). -/
def execDrw (x y : Reg) (n : Fin 16) (s : State) : Host.Outcome State Fault Refusal :=
  update s ((s.cur.withFb (xorDisplay s.cur.fb (drawMask s x y n))).setReg vf
    (flagByte (collisionFlag s.cur.fb (drawMask s x y n)))).advance

end Sys2Proof.Machine
end

