-- ==== Sys2Proof/Machine/Engine.lean ====
section
/-! DEFINITION. The engine around the cycle (spec 60_exceptions.md R230 to R252, 70_reset_and_hazards.md R270 to R274,
45_timers_keys.md R207): fetch, the Live step, the replay step, the eight commands, and the outputs of 10_state.md
R43. -/

namespace Sys2Proof.Machine

/-- Fetch (R57, R111): the big-endian word at the current state's `pc`. It never fails. -/
def fetchWord (s : State) : Word := memReadWord s.mem s.cur.pc.toNat

/-- The Live step (R245) with the cycle's checks in R119's order: the zero word halts (R112), an Invalid word halts
(R113), any other word is dispatched (R114). -/
def liveStep (s : State) : Host.Outcome State Fault Refusal :=
  if fetchWord s = 0 then haltInPlace s
  else
    match decodeWord (fetchWord s) with
    | .error _ => haltInPlace s
    | .ok i => exec i s

/-- One engine step (R244): Live, it executes; Replaying, it only moves `current` toward `head`. -/
def engineStep (s : State) : Host.Outcome State Fault Refusal :=
  if s.current = s.head then liveStep s else .next { s with current := ringNext s.current }

/-- `EXEC_TICK` (R246). -/
def execTick (s : State) : Host.Outcome State Fault Refusal := if s.paused then .next s else engineStep s

/-- A step was just requested (R35). -/
def withStepPending (o : Host.Outcome State Fault Refusal) : Host.Outcome State Fault Refusal :=
  match o with
  | .next s => .next { s with stepPending := true }
  | .fault r => .fault r
  | .refused r => .refused r

/-- `STEP_FWD` (R247). -/
def stepFwd (s : State) : Host.Outcome State Fault Refusal :=
  if s.paused then withStepPending (engineStep s) else .next s

/-- "if nonzero, each decrement by 1" (R230). -/
def countDown (t : Byte) : Byte := if t = 0 then 0 else t - 1

/-- One effective tick of both timers of a Machine State (R230, R231). -/
def MachineState.tick (m : MachineState) : MachineState := { m with dt := countDown m.dt, st := countDown m.st }

/-- `TIMER_TICK` (R230): in place on the current state. -/
def timerTick (s : State) : State :=
  if s.paused = false ∨ s.stepPending = true then { s.editCur s.cur.tick with stepPending := false }
  else { s with stepPending := false }

/-- `TOGGLE_PAUSE` (R241). -/
def togglePause (s : State) : State := { s with paused := !s.paused }

/-- `STEP_BACK` (R248): refused, as a no-op, at the oldest retained state. -/
def stepBack (s : State) : State :=
  if s.paused = true ∧ s.dist < min s.totalCycles 999 then { s with current := ringPrev s.current } else s

/-- `RESET` (R271): `paused` is unchanged. The model's own fields stay: no relation between draws before and after a
reset is assumed (log 6). -/
def resetMachine (s : State) : State :=
  { s with
    mem := s.pristine
    hist := histWrite s.hist 0 MachineState.fresh
    head := 0
    current := 0
    totalCycles := 0
    waiting := false
    keyLatch := none
    stepPending := false }

/-- `KEY_PRESSED(value)` (R207): dropped unless the machine waits; the last press wins. -/
def keyPressed (value : Key) (s : State) : State := if s.waiting then { s with keyLatch := some value } else s

/-- The memory after a load (R272): the power-on image, then the program from 0x200 on, as far as it fits. -/
def loadImage (bytes : List Byte) : Memory := memWriteBytes [] 0x200 bytes

/-- `LOAD_PROGRAM(bytes)` (R272). -/
def loadProgram (bytes : List Byte) (s : State) : State := resetMachine { s with pristine := loadImage bytes }

/-- One command (R40), an atomic transition of the whole state (R7). -/
def runCommand (c : Command) (s : State) : Host.Outcome State Fault Refusal :=
  match c with
  | .execTick key => execTick { s with keyNow := key }
  | .timerTick => .next (timerTick s)
  | .togglePause => .next (togglePause s)
  | .stepFwd key => stepFwd { s with keyNow := key }
  | .stepBack => .next (stepBack s)
  | .reset => .next (resetMachine s)
  | .keyPressed value => .next (keyPressed value s)
  | .loadProgram bytes => .next (loadProgram bytes s)

/-- Where the next fetch reads when both bytes are to be in memory: the head state's `pc`, or 0x200 when `pc` leaves
no room for two bytes (log 11). -/
def fetchPc (s : State) : Word := if (s.slot s.head).pc.toNat < 4095 then (s.slot s.head).pc else 0x200

/-- Place a word where the next step fetches, and make the next step a Live cycle (log 11). -/
def placeFetchWord (s : State) (w : Word) : State :=
  { s with
    mem := memWriteBytes s.mem (fetchPc s).toNat [highByte w, lowByte w]
    hist := histWrite s.hist s.head.val ((s.slot s.head).jump (fetchPc s))
    current := s.head
    paused := false
    commands := [] }

/-- What the display sink, the debug overlay and the input collaborator see (R43): the current state and two status
bits. Reading has no side effect. -/
structure Outputs where
  display : Display
  pc : Word
  v : Vector Byte 16
  ir : Word
  sp : Byte
  dt : Byte
  st : Byte
  paused : Bool
  waiting : Bool
  deriving DecidableEq, Repr

/-- The outputs (R43, R44): views of `hist[current]`, not of `hist[head]`. -/
def State.outputs (s : State) : Outputs where
  display := s.cur.fb
  pc := s.cur.pc
  v := s.cur.v
  ir := s.cur.ir
  sp := s.cur.sp
  dt := s.cur.dt
  st := s.cur.st
  paused := s.paused
  waiting := s.waiting

end Sys2Proof.Machine
end

