-- ==== Sys2Proof/Machine/Step.lean ====
section
/-! DEFINITION. One step of the machine: one command of the driver. -/

namespace Sys2Proof.Machine

/-- Take the oldest pending command; with none pending, the driver issues `EXEC_TICK` with the key input as it
stands (R40, log 4). -/
def step (s : State) : Host.Outcome State Fault Refusal :=
  match s.commands with
  | [] => execTick s
  | c :: rest => runCommand c { s with commands := rest }

/-- The state with an instruction's word placed where `step` fetches next; the bits at and above `nbits` are 0
(log 11). -/
def State.withFetchWord (s : State) (nbits w : Nat) : State := placeFetchWord s (BitVec.ofNat 16 (w % 2 ^ nbits))

end Sys2Proof.Machine
end

