-- ==== Sys2Proof/Safety.lean ====
section
/-! DEFINITION. What claims are stated in: the invariants of reachable states (spec 10_state.md R45), the halted and
the waiting machine (60_exceptions.md R262, R263), and a safe step. -/

namespace Sys2Proof.Machine

/-- What every reachable Machine State satisfies: `sp` within the depth (R25, R45), `pc` at most 0x10FE (R22, R45),
and every pushed return address at most 0x1001 (R139). -/
abbrev MachineState.Ok (m : MachineState) : Prop :=
  m.sp.toNat ≤ Config.stackDepth ∧ m.pc.toNat ≤ 0x10FE ∧ ∀ i : Fin 16, i.val < m.sp.toNat → (m.stackAt i.val).toNat ≤ 0x1001

/-- `waiting = 1` implies that the head state's `pc` addresses an `LD Vx, K` word (R45, R264). -/
abbrev WaitsAtKeyWord (s : State) : Prop :=
  s.waiting = true → ∃ x : Reg, decodeWord (memReadWord s.mem (s.slot s.head).pc.toNat) = .ok (.ldVxK x)

/-- The invariant of R45, with the canonical forms of the model's lists. -/
structure State.Inv (s : State) : Prop where
  memWf : Memory.wf s.mem
  pristineWf : Memory.wf s.pristine
  histWf : History.wf s.hist
  slotsOk : ∀ i : Fin 1000, (s.slot i).Ok
  distBound : s.dist ≤ min s.totalCycles 999
  latchWaits : s.keyLatch ≠ none → s.waiting = true
  waitWord : WaitsAtKeyWord s

/-- The halt of R262: every Live cycle of this current state returns `NoUpdate` whatever the inputs. -/
def State.halted (s : State) : Bool :=
  match decodeWord (fetchWord s) with
  | .error _ => true
  | .ok (.jp nnn) => zextAddr nnn == s.cur.pc
  | .ok .ret => s.cur.sp == 0
  | .ok (.call _) => s.cur.sp.toNat == Config.stackDepth
  | .ok _ => false

/-- The key wait of R263. -/
def State.keyWait (s : State) : Bool :=
  match decodeWord (fetchWord s) with
  | .ok (.ldVxK _) => s.keyLatch.isNone
  | _ => false

/-- A step that neither faults nor is refused: the hardware never stops (R220). -/
abbrev SafeStep (s : State) : Prop := ∃ t, step s = .next t

end Sys2Proof.Machine
end

