-- ==== Sys2Proof/Certificates/Slice0/Obligations.lean ====
section
/-! DEFINITION. The statements for the provers, and the vocabulary they are written in: encodings as runs of bits, the
frames, and what an instruction that returns Update does to the engine (spec 60_exceptions.md R245). -/

namespace Sys2Proof.Claims

open Sys2Proof.Machine

/-! ### Encodings written as the spec writes them, most significant field first (R81, R84) -/

/-- `op xxxx yyyy nnnn` -/
def wordXYN (op : BitVec 4) (x y : Reg) (n : BitVec 4) : Word := op ++ BitVec.ofNat 4 x.val ++ BitVec.ofNat 4 y.val ++ n

/-- `op xxxx kkkk kkkk` -/
def wordXKK (op : BitVec 4) (x : Reg) (kk : Byte) : Word := op ++ BitVec.ofNat 4 x.val ++ kk

/-- `op nnnn nnnn nnnn` -/
def wordNNN (op : BitVec 4) (nnn : BitVec 12) : Word := op ++ nnn

/-! ### Frames -/

/-- Every register outside the list is unchanged. -/
def KeepsRegs (xs : List Reg) (s t : State) : Prop := ∀ r : Reg, r ∉ xs → t.cur.reg r = s.cur.reg r

/-- The index register is unchanged. -/
def KeepsIr (s t : State) : Prop := t.cur.ir = s.cur.ir

/-- Both timers are unchanged. -/
def KeepsTimers (s t : State) : Prop := t.cur.dt = s.cur.dt ∧ t.cur.st = s.cur.st

/-- The stack pointer and all sixteen slots are unchanged. -/
def KeepsStack (s t : State) : Prop := t.cur.sp = s.cur.sp ∧ ∀ i, i < 16 → t.cur.stackAt i = s.cur.stackAt i

/-- Every pixel is unchanged. -/
def KeepsDisplay (s t : State) : Prop :=
  ∀ px py, px < 64 → py < 32 → displayPixel t.cur.fb px py = displayPixel s.cur.fb px py

/-- Every byte of memory outside `[a, a + n)` is unchanged. -/
def KeepsMemOutside (a n : Nat) (s t : State) : Prop := ∀ i, ¬(a ≤ i ∧ i < a + n) → memRead t.mem i = memRead s.mem i

/-- Every byte of memory is unchanged. -/
def KeepsMem (s t : State) : Prop := ∀ i, memRead t.mem i = memRead s.mem i

/-- The keyboard wait is unchanged. -/
def KeepsKeyWait (s t : State) : Prop := t.waiting = s.waiting ∧ t.keyLatch = s.keyLatch

/-- No random byte was drawn. -/
def KeepsDraws (s t : State) : Prop := t.draws = s.draws

/-- The engine bits, the pristine copy, the straps and the inputs, which no instruction writes. -/
def KeepsEngine (s t : State) : Prop :=
  (∀ i, memRead t.pristine i = memRead s.pristine i) ∧ t.paused = s.paused ∧ t.stepPending = s.stepPending ∧
    t.straps = s.straps ∧ t.keyNow = s.keyNow ∧ t.commands = s.commands

/-- The commit of R245: head moves one slot on around the ring, current goes with it, one more cycle is counted, and
every other slot keeps its Machine State, the previous current one among them. -/
def Committed (s t : State) : Prop :=
  t.head.val = (s.head.val + 1) % 1000 ∧ t.current = t.head ∧ t.totalCycles = s.totalCycles + 1 ∧
    ∀ i : Fin 1000, i ≠ t.head → t.slot i = s.slot i

/-- `i` completes on `s` (R116): it answers a next state, committed, that satisfies `P`. -/
def Updates (i : Instr) (s : State) (P : State → Prop) : Prop :=
  ∃ t, exec i s = .next t ∧ Committed s t ∧ KeepsEngine s t ∧ P t

/-- `pc <- pc + 2` (R115). -/
def Advances (s t : State) : Prop := t.cur.pc.toNat = (s.cur.pc.toNat + 2) % 65536

/-- All that an instruction leaves alone which writes registers and `pc` only. -/
def KeepsAllButRegs (s t : State) : Prop :=
  KeepsIr s t ∧ KeepsTimers s t ∧ KeepsStack s t ∧ KeepsDisplay s t ∧ KeepsMem s t ∧ KeepsKeyWait s t

/-- `i` completes, advances, and its only other effect is a new value of `v[x]`, which satisfies `val`. -/
def WritesReg (i : Instr) (s : State) (x : Reg) (val : Byte → Prop) : Prop :=
  Updates i s fun t =>
    val (t.cur.reg x) ∧ Advances s t ∧ KeepsRegs [x] s t ∧ KeepsAllButRegs s t ∧ KeepsDraws s t

/-- `i` completes, advances, writes `res` to `v[x]` and `flag` to `v[15]`, and writes nothing else; for `x = 15` the
strap decides which of the two remains (R121). -/
def WritesRegAndFlag (i : Instr) (s : State) (x : Reg) (res : Nat) (flag : Bool) : Prop :=
  Updates i s fun t =>
    (x ≠ 15 → (t.cur.reg x).toNat = res ∧ (t.cur.reg 15).toNat = flag.toNat) ∧
    (x = 15 → s.straps.vfWritePriority = .flag → (t.cur.reg 15).toNat = flag.toNat) ∧
    (x = 15 → s.straps.vfWritePriority = .result → (t.cur.reg 15).toNat = res) ∧
    Advances s t ∧ KeepsRegs [x, 15] s t ∧ KeepsAllButRegs s t ∧ KeepsDraws s t

/-- `i` completes and only moves `pc`: by 4 if the condition holds, by 2 if not (R133). -/
def Skips (i : Instr) (s : State) (c : Prop) : Prop :=
  Updates i s fun t =>
    (c → t.cur.pc.toNat = (s.cur.pc.toNat + 4) % 65536) ∧ (¬c → Advances s t) ∧
    KeepsRegs [] s t ∧ KeepsAllButRegs s t ∧ KeepsDraws s t

/-- `i` completes, advances, and its only other effect is a new value of `ir`. -/
def WritesIr (i : Instr) (s : State) (val : Nat) : Prop :=
  Updates i s fun t =>
    t.cur.ir.toNat = val ∧ Advances s t ∧ KeepsRegs [] s t ∧ KeepsTimers s t ∧ KeepsStack s t ∧ KeepsDisplay s t ∧
    KeepsMem s t ∧ KeepsKeyWait s t ∧ KeepsDraws s t

/-! ### The pseudocode of R187, loop by loop, on a grid of pixels and a collision bit -/

/-- The inner body, for column offset `c`. -/
def drawColumn (b : Byte) (x0 py : Nat) (acc : (Nat → Nat → Bool) × Bool) (c : Nat) : (Nat → Nat → Bool) × Bool :=
  if x0 + c ≤ 63 ∧ b.getLsbD (7 - c) = true then
    (fun i j => if i = x0 + c ∧ j = py then !(acc.1 (x0 + c) py) else acc.1 i j, acc.2 || acc.1 (x0 + c) py)
  else acc

/-- The outer body, for row `r`. -/
def drawRow (mem : Memory) (a x0 y0 : Nat) (acc : (Nat → Nat → Bool) × Bool) (r : Nat) : (Nat → Nat → Bool) × Bool :=
  if y0 + r ≤ 31 then (List.range 8).foldl (drawColumn (memRead mem (a + r)) x0 (y0 + r)) acc else acc

/-- The whole draw. -/
def drawLoop (mem : Memory) (a x0 y0 n : Nat) (grid : Nat → Nat → Bool) : (Nat → Nat → Bool) × Bool :=
  (List.range n).foldl (drawRow mem a x0 y0) (grid, false)

/-- The starting coordinate of R187: reset to 0 outside the grid. -/
def startAt (size : Nat) (b : Byte) : Nat := if b.toNat ≥ size then 0 else b.toNat

/-- The sprite bit that R187 lays over pixel (`px`, `py`): row byte `py - y0`, bit `7 - (px - x0)`. -/
def spriteBit (s : State) (x y : Reg) (n : Fin 16) (px py : Nat) : Prop :=
  startAt 32 (s.cur.reg y) ≤ py ∧ py < startAt 32 (s.cur.reg y) + n.val ∧
  startAt 64 (s.cur.reg x) ≤ px ∧ px < startAt 64 (s.cur.reg x) + 8 ∧
  (memRead s.mem (s.cur.ir.toNat + (py - startAt 32 (s.cur.reg y)))).getLsbD (7 - (px - startAt 64 (s.cur.reg x))) = true

/-! ### Runs -/

/-- The machine with its pending commands replaced. -/
def withCommands (s : State) (cs : List Command) : State := { s with commands := cs }

/-- `RESET` and `LOAD_PROGRAM`, the commands that restart the machine. -/
def restartsMachine : Command → Bool
  | .reset => true
  | .loadProgram _ => true
  | _ => false

end Sys2Proof.Claims

open Sys2Proof Sys2Proof.Machine Sys2Proof.Claims

/-! ## Encoding -/

/-- 30_encoding.md R80, R84, R86: the bytes of every instruction, whatever follows them, decode to it. -/
def Obligations.DecodeOfEncodedBytes : Prop :=
  ∀ (i : Instr) (rest : List Byte), decodeBytes (encodeBytes i ++ rest) = .ok (i, rest)

/-- 30_encoding.md R84, R88: the case tree of R86 and the mask/match table of R84 classify all 65536 words alike. The
table itself is general knowledge of the spec's (log 3). -/
def Obligations.DecoderAgreesWithOpcodeTable : Prop :=
  ∀ w : Word,
    (∀ r ∈ opcodeTable, r.covers w = true ↔ ∃ i, decodeWord w = .ok i ∧ i.kind = r.kind) ∧
    (wellFormedWord w = false ↔ ∃ e, decodeWord w = .error e)

/-- 30_encoding.md R81, R87: every bit the Decoder reads is kept; only the second nibble of group 0 is not. Which word
stands for `CLS` and `RET` is the model's choice (log 12). -/
def Obligations.EncodeOfDecodedWord : Prop :=
  ∀ (w : Word) (i : Instr), decodeWord w = .ok i → encode i = if w.toNat < 4096 then w &&& 0xF0FF else w

/-- 30_encoding.md R84, 95_test_vectors.md: words written out from the spec's encodings. -/
def Obligations.WrittenOutWordsDecode : Prop :=
  decodeWord 0b0000000011100000 = .ok .cls ∧ decodeWord 0b0001001000000000 = .ok (.jp 0x200) ∧
  decodeWord 0b0011001100101010 = .ok (.seImm 3 0x2A) ∧ decodeWord 0b1000000100100100 = .ok (.addReg 1 2) ∧
  decodeWord 0b1010001011110000 = .ok (.ldI 0x2F0) ∧ decodeWord 0b1101000100100101 = .ok (.drw 1 2 5) ∧
  decodeWord 0b1111001100001010 = .ok (.ldVxK 3) ∧ decodeWord 0b1111001001010101 = .ok (.stRegs 2) ∧
  decodeWord 0b1110000110011110 = .ok (.skp 1) ∧ decodeWord 0 = .error .zeroWord ∧
  decodeWord 0x8128 = .error (.invalidWord 0x8128)

/-! ## The cycle -/

/-- 40_engine_cycle.md R111, R114, 60_exceptions.md R244 to R247: on a word that decodes, a Live `EXEC_TICK` (unpaused)
and a Live `STEP_FWD` (paused) run exactly that instruction; that `STEP_FWD` sets the step-pending bit is decision D23.
That an empty command list is an `EXEC_TICK` is the model's choice (log 4), and so is the key level that the two commands
carry (log 5). What the same commands do while Replaying: `TicksReplayWhileReplaying`. -/
def Obligations.StepRunsDecodedInstruction : Prop :=
  ∀ (s : State) (i : Instr), s.live → decodeWord (fetchWord s) = .ok i →
    (s.paused = false → s.commands = [] → step s = exec i s) ∧
    (s.paused = false → ∀ key rest, s.commands = .execTick key :: rest →
      step s = exec i { s with commands := rest, keyNow := key }) ∧
    (s.paused = true → ∀ key rest, s.commands = .stepFwd key :: rest →
      ∀ t, exec i { s with commands := rest, keyNow := key } = .next t → step s = .next { t with stepPending := true })

/-- Log 11: the word placed for the next fetch is what the next step fetches and runs, from any state. -/
def Obligations.StepRunsPlacedWord : Prop :=
  ∀ (s : State) (w : Nat) (i : Instr), decodeTableWord 16 w = some i →
    step (s.withFetchWord 16 w) = exec i (s.withFetchWord 16 w) ∧
    (w < 65536 → fetchWord (s.withFetchWord 16 w) = BitVec.ofNat 16 w)

/-- 20_memory.md R57: fetch is the big-endian pair at `pc`; at 4095 the low byte reads 0 (decision D11), from 4096 on
the word is 0. -/
def Obligations.FetchIsBigEndianPair : Prop :=
  ∀ s : State,
    (s.cur.pc.toNat < 4095 →
      (fetchWord s).toNat = (memRead s.mem s.cur.pc.toNat).toNat * 256 + (memRead s.mem (s.cur.pc.toNat + 1)).toNat) ∧
    (s.cur.pc.toNat = 4095 → (fetchWord s).toNat = (memRead s.mem 4095).toNat * 256) ∧
    (4096 ≤ s.cur.pc.toNat → fetchWord s = 0)

/-- 60_exceptions.md R245, 40_engine_cycle.md R117: a Live step either leaves everything but `waiting` as it was, or
commits: the ring moves one slot, the new state goes there, and every other slot keeps its own. It stays Live. -/
def Obligations.LiveStepCommitsOrChangesNothing : Prop :=
  ∀ s t : State, s.live → liveStep s = .next t →
    t.live ∧ KeepsEngine s t ∧ (t = { s with waiting := t.waiting } ∨ Committed s t)

/-- 40_engine_cycle.md R118 (with the spec's decisions D4, D5, D22): a Live cycle commits nothing in exactly six cases.
For `sp` above the depth the model stops (log 8), so `sp` is bounded here. -/
def Obligations.NoUpdateInExactlySixCases : Prop :=
  ∀ s : State, s.live → s.cur.sp.toNat ≤ 16 →
    ∃ t, liveStep s = .next t ∧
      (t.totalCycles = s.totalCycles ↔
        fetchWord s = 0 ∨ (∃ e, decodeWord (fetchWord s) = .error e) ∨
        (∃ nnn : BitVec 12, decodeWord (fetchWord s) = .ok (.jp nnn) ∧ nnn.toNat = s.cur.pc.toNat) ∨
        ((∃ x, decodeWord (fetchWord s) = .ok (.ldVxK x)) ∧ s.keyLatch = none) ∨
        (decodeWord (fetchWord s) = .ok .ret ∧ s.cur.sp.toNat = 0) ∨
        ((∃ nnn, decodeWord (fetchWord s) = .ok (.call nnn)) ∧ s.cur.sp.toNat = 16))

/-- 40_engine_cycle.md R112, R113, 60_exceptions.md R262: a halted machine stays as it is through every `EXEC_TICK`.
That an empty command list is an `EXEC_TICK` is the model's choice (log 4). -/
def Obligations.HaltedMachineStaysHalted : Prop :=
  ∀ (s : State) (n : Nat), s.live → s.halted = true → s.commands = [] → Host.Core.run Sys2Proof.core n s = .next s

/-! ## Load, arithmetic, logic, shift, random -/

/-- 42_alu.md R150, R152, 45_timers_keys.md R200: `LD Vx, kk`, `LD Vx, Vy` and `LD Vx, DT`. -/
def Obligations.LoadsWriteTheirSource : Prop :=
  ∀ (s : State) (x y : Reg) (kk : Byte),
    WritesReg (.ldImm x kk) s x (· = kk) ∧ WritesReg (.ldReg x y) s x (· = s.cur.reg y) ∧
    WritesReg (.ldVxDt x) s x (· = s.cur.dt)

/-- 42_alu.md R151: `ADD Vx, kk` adds modulo 256; VF is not written unless `x = 15` (the spec's decision D9). -/
def Obligations.AddImmediateWrapsWithoutFlag : Prop :=
  ∀ (s : State) (x : Reg) (kk : Byte),
    WritesReg (.addImm x kk) s x fun b => b.toNat = ((s.cur.reg x).toNat + kk.toNat) % 256

/-- 42_alu.md R153 to R155: the logic instructions work bit by bit; VF is not written unless `x = 15` (decision D9). -/
def Obligations.LogicIsBitwiseWithoutFlag : Prop :=
  ∀ (s : State) (x y : Reg),
    WritesReg (.orReg x y) s x (fun b => ∀ k, k < 8 → b.getLsbD k = ((s.cur.reg x).getLsbD k || (s.cur.reg y).getLsbD k)) ∧
    WritesReg (.andReg x y) s x (fun b => ∀ k, k < 8 → b.getLsbD k = ((s.cur.reg x).getLsbD k && (s.cur.reg y).getLsbD k)) ∧
    WritesReg (.xorReg x y) s x (fun b => ∀ k, k < 8 → b.getLsbD k = ((s.cur.reg x).getLsbD k ^^ (s.cur.reg y).getLsbD k))

/-- 42_alu.md R157: `ADD Vx, Vy`. The operands are those before any write (decision D7); into VF itself the strap decides
(40_engine_cycle.md R121, decision D8); the encoding is the spec's general knowledge (G1, D38; log 3). -/
def Obligations.AddRegisterSetsCarry : Prop :=
  ∀ (s : State) (x y : Reg),
    decodeWord (wordXYN 0x8 x y 0x4) = .ok (.addReg x y) ∧
    WritesRegAndFlag (.addReg x y) s x (((s.cur.reg x).toNat + (s.cur.reg y).toNat) % 256)
      (decide ((s.cur.reg x).toNat + (s.cur.reg y).toNat > 255))

/-- 42_alu.md R158 and R160: `SUB` and `SUBN`, both with the STRICT comparison as flag. The operands are those before
any write (decision D7); for VF itself decision D8; the encodings are the spec's general knowledge (G1, D38; log 3). -/
def Obligations.SubtractSetsStrictGreater : Prop :=
  ∀ (s : State) (x y : Reg),
    decodeWord (wordXYN 0x8 x y 0x5) = .ok (.sub x y) ∧ decodeWord (wordXYN 0x8 x y 0x7) = .ok (.subn x y) ∧
    WritesRegAndFlag (.sub x y) s x (((s.cur.reg x).toNat + 256 - (s.cur.reg y).toNat) % 256)
      (decide ((s.cur.reg x).toNat > (s.cur.reg y).toNat)) ∧
    WritesRegAndFlag (.subn x y) s x (((s.cur.reg y).toNat + 256 - (s.cur.reg x).toNat) % 256)
      (decide ((s.cur.reg y).toNat > (s.cur.reg x).toNat))

/-- 42_alu.md R159 and R161: `SHR` and `SHL` under both values of `QUIRK_SHIFT_VY`. The source is that before any write
(decision D7); for VF itself decision D8; the encodings are the spec's general knowledge (G1, D38; log 3). -/
def Obligations.ShiftsSetTheBitShiftedOut : Prop :=
  ∀ (s : State) (x y : Reg) (src : Byte),
    (src = if s.straps.quirkShiftVy = true then s.cur.reg y else s.cur.reg x) →
    decodeWord (wordXYN 0x8 x y 0x6) = .ok (.shr x y) ∧ decodeWord (wordXYN 0x8 x y 0xE) = .ok (.shl x y) ∧
    WritesRegAndFlag (.shr x y) s x (src.toNat / 2) (src.getLsbD 0) ∧
    WritesRegAndFlag (.shl x y) s x (src.toNat * 2 % 256) (src.getLsbD 7)

/-- 42_alu.md R163: `RND Vx, kk` masks the byte of this draw; the draw is a free value (decision D21, log 6), so this
holds whatever it is. -/
def Obligations.RandomIsMaskedDraw : Prop :=
  ∀ (s : State) (x : Reg) (kk : Byte),
    Updates (.rnd x kk) s fun t =>
      (∀ k, k < 8 → (t.cur.reg x).getLsbD k = ((Config.randomByte s.draws).getLsbD k && kk.getLsbD k)) ∧
      t.draws = s.draws + 1 ∧ Advances s t ∧ KeepsRegs [x] s t ∧ KeepsAllButRegs s t

/-! ## Control transfer and skips -/

/-- 41_flow.md R133 to R137: the four register skips (a taken skip adds 4: decision D36). -/
def Obligations.RegisterSkipsMovePc : Prop :=
  ∀ (s : State) (x y : Reg) (kk : Byte),
    Skips (.seImm x kk) s (s.cur.reg x = kk) ∧ Skips (.sneImm x kk) s (s.cur.reg x ≠ kk) ∧
    Skips (.seReg x y) s (s.cur.reg x = s.cur.reg y) ∧ Skips (.sneReg x y) s (s.cur.reg x ≠ s.cur.reg y)

/-- 45_timers_keys.md R203 to R205: the key skips compare all 8 bits and no key matches nothing (decision D19). -/
def Obligations.KeySkipsMovePc : Prop :=
  ∀ (s : State) (x : Reg) (pressed : Prop),
    (pressed ↔ ∃ k : Key, s.keyNow = some k ∧ k.toNat = (s.cur.reg x).toNat) →
    Skips (.skp x) s pressed ∧ Skips (.sknp x) s (¬pressed)

/-- 41_flow.md R131: `JP nnn` halts in place onto its own address and otherwise sets `pc`. -/
def Obligations.JumpSetsPcOrHalts : Prop :=
  ∀ (s : State) (nnn : BitVec 12),
    decodeWord (wordNNN 0x1 nnn) = .ok (.jp nnn) ∧
    (nnn.toNat = s.cur.pc.toNat → exec (.jp nnn) s = .next s) ∧
    (nnn.toNat ≠ s.cur.pc.toNat → Updates (.jp nnn) s fun t =>
      t.cur.pc.toNat = nnn.toNat ∧ KeepsRegs [] s t ∧ KeepsAllButRegs s t ∧ KeepsDraws s t)

/-- 41_flow.md R132: `CALL nnn` pushes `pc + 2` (decision D6), or halts in place with a full stack (D3, D4). -/
def Obligations.CallPushesReturnAddress : Prop :=
  ∀ (s : State) (nnn : BitVec 12),
    (s.cur.sp.toNat = 16 → exec (.call nnn) s = .next s) ∧
    (s.cur.sp.toNat < 16 → Updates (.call nnn) s fun t =>
      t.cur.pc.toNat = nnn.toNat ∧ t.cur.sp.toNat = s.cur.sp.toNat + 1 ∧
      (t.cur.stackAt s.cur.sp.toNat).toNat = (s.cur.pc.toNat + 2) % 65536 ∧
      (∀ i, i < 16 → i ≠ s.cur.sp.toNat → t.cur.stackAt i = s.cur.stackAt i) ∧
      KeepsRegs [] s t ∧ KeepsIr s t ∧ KeepsTimers s t ∧ KeepsDisplay s t ∧ KeepsMem s t ∧ KeepsKeyWait s t ∧ KeepsDraws s t)

/-- 41_flow.md R130: `RET` pops into `pc`, the popped slot keeps its value (decision D6), or halts in place with an
empty stack (D5). -/
def Obligations.ReturnPopsIntoPc : Prop :=
  ∀ s : State,
    (s.cur.sp.toNat = 0 → exec .ret s = .next s) ∧
    (0 < s.cur.sp.toNat → s.cur.sp.toNat ≤ 16 → Updates .ret s fun t =>
      t.cur.pc = s.cur.stackAt (s.cur.sp.toNat - 1) ∧ t.cur.sp.toNat + 1 = s.cur.sp.toNat ∧
      (∀ i, i < 16 → t.cur.stackAt i = s.cur.stackAt i) ∧
      KeepsRegs [] s t ∧ KeepsIr s t ∧ KeepsTimers s t ∧ KeepsDisplay s t ∧ KeepsMem s t ∧ KeepsKeyWait s t ∧ KeepsDraws s t)

/-- 41_flow.md R130, R132, R141: a `RET` right after a `CALL` comes back behind the `CALL`, with the stack pointer
as before (decisions D4, D6). -/
def Obligations.ReturnUndoesCall : Prop :=
  ∀ (s : State) (nnn : BitVec 12), s.cur.sp.toNat < 16 →
    ∃ t u, exec (.call nnn) s = .next t ∧ exec .ret t = .next u ∧
      u.cur.pc.toNat = (s.cur.pc.toNat + 2) % 65536 ∧ u.cur.sp = s.cur.sp ∧ KeepsRegs [] s u ∧ u.totalCycles = s.totalCycles + 2

/-- The model's choice (log 8): with `sp` above the depth, which 10_state.md R25 rules out, `RET` and `CALL` stop by
name. -/
def Obligations.ReturnAndCallStopAboveDepth : Prop :=
  ∀ (s : State) (nnn : BitVec 12), 16 < s.cur.sp.toNat →
    exec .ret s = .fault .stackPointerAboveDepth ∧ exec (.call nnn) s = .fault .stackPointerAboveDepth

/-- 41_flow.md R140: `JP V0, nnn`, which commits even onto its own address (decision D22). -/
def Obligations.JumpWithOffsetSetsPc : Prop :=
  ∀ (s : State) (nnn : BitVec 12),
    Updates (.jpV0 nnn) s fun t =>
      t.cur.pc.toNat = nnn.toNat + (s.cur.reg 0).toNat ∧ KeepsRegs [] s t ∧ KeepsAllButRegs s t ∧ KeepsDraws s t

/-! ## Index register and memory -/

/-- 43_index_memory.md R170 to R172: `LD I, nnn`; `ADD I, Vx` modulo 65536, without a flag (D9, D13); `LD F, Vx` with
the low nibble (D18). -/
def Obligations.IndexInstructionsWriteIr : Prop :=
  ∀ (s : State) (x : Reg) (nnn : BitVec 12),
    WritesIr (.ldI nnn) s nnn.toNat ∧
    WritesIr (.addI x) s ((s.cur.ir.toNat + (s.cur.reg x).toNat) % 65536) ∧
    WritesIr (.ldF x) s (5 * ((s.cur.reg x).toNat % 16))

/-- 43_index_memory.md R173: `LD B, Vx` stores the three digits at `ir`, `ir + 1`, `ir + 2`, each where it is inside
memory, and changes no other byte. That the three addresses do not wrap is decision D12; the encoding is the spec's general
knowledge (G1, D38; log 3). -/
def Obligations.BcdStoresThreeDigits : Prop :=
  ∀ (s : State) (x : Reg),
    decodeWord (wordXKK 0xF x 0x33) = .ok (.ldB x) ∧
    Updates (.ldB x) s fun t =>
      (s.cur.ir.toNat < 4096 → (memRead t.mem s.cur.ir.toNat).toNat = (s.cur.reg x).toNat / 100) ∧
      (s.cur.ir.toNat + 1 < 4096 → (memRead t.mem (s.cur.ir.toNat + 1)).toNat = (s.cur.reg x).toNat / 10 % 10) ∧
      (s.cur.ir.toNat + 2 < 4096 → (memRead t.mem (s.cur.ir.toNat + 2)).toNat = (s.cur.reg x).toNat % 10) ∧
      KeepsMemOutside (s.cur.dataAddr 0) 3 s t ∧ Advances s t ∧ KeepsRegs [] s t ∧ KeepsIr s t ∧ KeepsTimers s t ∧
      KeepsStack s t ∧ KeepsDisplay s t ∧ KeepsKeyWait s t ∧ KeepsDraws s t

/-- 43_index_memory.md R174: `LD [I], Vx` stores `v[0..x]` from `ir` on, each byte where it is inside memory, and
changes no other byte; `ir` advances by `x + 1` under the quirk. That the addresses do not wrap is decision D12, that `ir`
wraps modulo 65536 is D13; the encoding is the spec's general knowledge (G1, D38; log 3). -/
def Obligations.BlockStoreWritesRegisters : Prop :=
  ∀ (s : State) (x : Reg),
    decodeWord (wordXKK 0xF x 0x55) = .ok (.stRegs x) ∧
    Updates (.stRegs x) s fun t =>
      (∀ i : Reg, i ≤ x → s.cur.ir.toNat + i.val < 4096 → memRead t.mem (s.cur.ir.toNat + i.val) = s.cur.reg i) ∧
      KeepsMemOutside (s.cur.dataAddr 0) (x.val + 1) s t ∧
      (s.straps.quirkIndexInc = true → t.cur.ir.toNat = (s.cur.ir.toNat + x.val + 1) % 65536) ∧
      (s.straps.quirkIndexInc = false → t.cur.ir = s.cur.ir) ∧
      Advances s t ∧ KeepsRegs [] s t ∧ KeepsTimers s t ∧ KeepsStack s t ∧ KeepsDisplay s t ∧ KeepsKeyWait s t ∧ KeepsDraws s t

/-- 43_index_memory.md R175: `LD Vx, [I]` loads `v[0..x]` from `ir` on, a byte outside memory as 0; `ir` advances by
`x + 1` under the quirk. That the addresses do not wrap is decision D12, that `ir` wraps modulo 65536 is D13; the encoding
is the spec's general knowledge (G1, D38; log 3). -/
def Obligations.BlockLoadReadsRegisters : Prop :=
  ∀ (s : State) (x : Reg),
    decodeWord (wordXKK 0xF x 0x65) = .ok (.ldRegs x) ∧
    Updates (.ldRegs x) s fun t =>
      (∀ i : Reg, i ≤ x → s.cur.ir.toNat + i.val < 4096 → t.cur.reg i = memRead s.mem (s.cur.ir.toNat + i.val)) ∧
      (∀ i : Reg, i ≤ x → 4096 ≤ s.cur.ir.toNat + i.val → t.cur.reg i = 0) ∧
      (∀ i : Reg, x < i → t.cur.reg i = s.cur.reg i) ∧
      (s.straps.quirkIndexInc = true → t.cur.ir.toNat = (s.cur.ir.toNat + x.val + 1) % 65536) ∧
      (s.straps.quirkIndexInc = false → t.cur.ir = s.cur.ir) ∧
      Advances s t ∧ KeepsTimers s t ∧ KeepsStack s t ∧ KeepsDisplay s t ∧ KeepsMem s t ∧ KeepsKeyWait s t ∧ KeepsDraws s t

/-- 43_index_memory.md R174, R175: what `LD [I], Vx` stored inside memory, `LD Vx, [I]` at the same `ir` loads back,
under either value of the quirk. -/
def Obligations.BlockLoadReturnsBlockStore : Prop :=
  ∀ (s : State) (x : Reg), s.cur.ir.toNat + x.val < 4096 →
    ∃ t u v, exec (.stRegs x) s = .next t ∧ exec (.ldI (s.cur.ir.setWidth 12)) t = .next u ∧
      exec (.ldRegs x) u = .next v ∧ KeepsRegs [] s v

/-! ## Display -/

/-- 44_display.md R185: `CLS` clears every pixel and writes no flag. -/
def Obligations.ClearScreenClearsEveryPixel : Prop :=
  ∀ s : State,
    Updates .cls s fun t =>
      (∀ px py, px < 64 → py < 32 → displayPixel t.cur.fb px py = false) ∧
      Advances s t ∧ KeepsRegs [] s t ∧ KeepsIr s t ∧ KeepsTimers s t ∧ KeepsStack s t ∧ KeepsMem s t ∧ KeepsKeyWait s t ∧
      KeepsDraws s t

/-- 44_display.md R186 to R192: `DRW` turns over exactly the pixels the sprite covers, clipped at the edges (decisions
D15, D16, D17; operands read first D7, no address wrap D12), and VF is 1 exactly if it cleared one. -/
def Obligations.DrawXorsSpriteAndReportsCollision : Prop :=
  ∀ (s : State) (x y : Reg) (n : Fin 16),
    Updates (.drw x y n) s fun t =>
      (∀ px py, px < 64 → py < 32 → spriteBit s x y n px py → displayPixel t.cur.fb px py = !displayPixel s.cur.fb px py) ∧
      (∀ px py, px < 64 → py < 32 → ¬spriteBit s x y n px py → displayPixel t.cur.fb px py = displayPixel s.cur.fb px py) ∧
      (t.cur.reg 15 = 0 ∨ t.cur.reg 15 = 1) ∧
      (t.cur.reg 15 = 1 ↔ ∃ px py, px < 64 ∧ py < 32 ∧ displayPixel s.cur.fb px py = true ∧ displayPixel t.cur.fb px py = false) ∧
      Advances s t ∧ KeepsRegs [15] s t ∧ KeepsIr s t ∧ KeepsTimers s t ∧ KeepsStack s t ∧ KeepsMem s t ∧ KeepsKeyWait s t ∧
      KeepsDraws s t

/-- 44_display.md R187: the model's row masks compute what the rule's nested loops compute (decisions D7, D12,
D15, D16, D17). -/
def Obligations.DrawRefinesTheRulesLoops : Prop :=
  ∀ (s : State) (x y : Reg) (n : Fin 16) (out : (Nat → Nat → Bool) × Bool),
    out = drawLoop s.mem s.cur.ir.toNat (startAt 64 (s.cur.reg x)) (startAt 32 (s.cur.reg y)) n.val (displayPixel s.cur.fb) →
    ∃ t, exec (.drw x y n) s = .next t ∧
      (∀ px py, px < 64 → py < 32 → displayPixel t.cur.fb px py = out.1 px py) ∧ (t.cur.reg 15).toNat = out.2.toNat

/-- 44_display.md R193: drawing twice restores the display, and the second draw collides if the first set a pixel. -/
def Obligations.DrawTwiceRestoresDisplay : Prop :=
  ∀ (s : State) (x y : Reg) (n : Fin 16), x ≠ 15 → y ≠ 15 →
    ∃ t u, exec (.drw x y n) s = .next t ∧ exec (.drw x y n) t = .next u ∧
      (∀ px py, px < 64 → py < 32 → displayPixel u.cur.fb px py = displayPixel s.cur.fb px py) ∧
      ((∃ px py, px < 64 ∧ py < 32 ∧ displayPixel s.cur.fb px py = false ∧ displayPixel t.cur.fb px py = true) →
        u.cur.reg 15 = 1) ∧
      ((¬∃ px py, px < 64 ∧ py < 32 ∧ displayPixel s.cur.fb px py = false ∧ displayPixel t.cur.fb px py = true) →
        u.cur.reg 15 = 0)

/-! ## Timers and keys -/

/-- 45_timers_keys.md R201, R202: `LD DT, Vx` and `LD ST, Vx`. -/
def Obligations.TimerLoadsWriteOneTimer : Prop :=
  ∀ (s : State) (x : Reg),
    (Updates (.ldDtVx x) s fun t => t.cur.dt = s.cur.reg x ∧ t.cur.st = s.cur.st ∧ Advances s t ∧ KeepsRegs [] s t ∧
      KeepsIr s t ∧ KeepsStack s t ∧ KeepsDisplay s t ∧ KeepsMem s t ∧ KeepsKeyWait s t ∧ KeepsDraws s t) ∧
    (Updates (.ldStVx x) s fun t => t.cur.st = s.cur.reg x ∧ t.cur.dt = s.cur.dt ∧ Advances s t ∧ KeepsRegs [] s t ∧
      KeepsIr s t ∧ KeepsStack s t ∧ KeepsDisplay s t ∧ KeepsMem s t ∧ KeepsKeyWait s t ∧ KeepsDraws s t)

/-- 45_timers_keys.md R206: `LD Vx, K` with a latched key consumes it; without one it only sets `waiting` (the latch is
decision D20). -/
def Obligations.KeyLoadWaitsOrConsumes : Prop :=
  ∀ (s : State) (x : Reg),
    (s.keyLatch = none → exec (.ldVxK x) s = .next { s with waiting := true }) ∧
    (∀ k : Key, s.keyLatch = some k → Updates (.ldVxK x) s fun t =>
      (t.cur.reg x).toNat = k.toNat ∧ t.keyLatch = none ∧ t.waiting = false ∧ Advances s t ∧ KeepsRegs [x] s t ∧
      KeepsIr s t ∧ KeepsTimers s t ∧ KeepsStack s t ∧ KeepsDisplay s t ∧ KeepsMem s t ∧ KeepsDraws s t)

/-- 45_timers_keys.md R206, R207, 60_exceptions.md R263: a machine at `LD Vx, K` waits through any number of ticks with
nothing but `waiting` changed; the last of the key presses that come then is the one that the next tick consumes
(decision D20). -/
def Obligations.KeyWaitEndsWithLastPress : Prop :=
  ∀ (s : State) (x : Reg) (ticks : List (Option Key)) (presses : List Key) (k : Key) (key : Option Key),
    s.live → s.paused = false → s.keyLatch = none → decodeWord (fetchWord s) = .ok (.ldVxK x) → ticks ≠ [] →
    (∃ t, Host.Core.run Sys2Proof.core ticks.length (withCommands s (ticks.map .execTick)) = .next t ∧
      t = { s with waiting := true, keyNow := t.keyNow, commands := [] }) ∧
    ∃ u, Host.Core.run Sys2Proof.core (ticks.length + (presses.length + 1) + 1)
        (withCommands s (ticks.map .execTick ++ (presses.map .keyPressed ++ [.keyPressed k]) ++ [.execTick key])) = .next u ∧
      (u.cur.reg x).toNat = k.toNat ∧ u.cur.pc.toNat = (s.cur.pc.toNat + 2) % 65536 ∧ u.waiting = false ∧
      u.keyLatch = none ∧ u.totalCycles = s.totalCycles + 1 ∧ KeepsRegs [x] s u

/-- 45_timers_keys.md R207: `KEY_PRESSED` is dropped unless the machine waits, and replaces an unconsumed press; it
changes nothing else (decision D20). -/
def Obligations.KeyPressIsLatchedOnlyWhileWaiting : Prop :=
  ∀ (s : State) (k : Key) (rest : List Command), s.commands = .keyPressed k :: rest →
    (s.waiting = true → step s = .next { s with keyLatch := some k, commands := rest }) ∧
    (s.waiting = false → step s = .next { s with commands := rest })

/-! ## The engine's commands -/

/-- 60_exceptions.md R244: Live, the engine step is the Live step; Replaying, it moves `current` one slot on and changes
nothing else. -/
def Obligations.EngineStepIsLiveOrReplay : Prop :=
  ∀ s : State,
    (s.current = s.head → engineStep s = liveStep s) ∧
    (s.current ≠ s.head → ∃ c : Fin 1000, c.val = (s.current.val + 1) % 1000 ∧ engineStep s = .next { s with current := c })

/-- 60_exceptions.md R244, R246 (decision D25), R247 (decision D23): on a Replaying machine an unpaused `EXEC_TICK` and a
paused `STEP_FWD` move `current` one slot on, toward `head`, and execute nothing; `STEP_FWD` sets the step-pending bit on
such a step too. Nothing else changes but the taken command and the key level it carries (logs 4, 5). -/
def Obligations.TicksReplayWhileReplaying : Prop :=
  ∀ s : State, s.current ≠ s.head →
    ∃ c : Fin 1000, c.val = (s.current.val + 1) % 1000 ∧
      (s.paused = false → s.commands = [] → step s = .next { s with current := c }) ∧
      (∀ key rest, s.paused = false → s.commands = .execTick key :: rest →
        step s = .next { s with current := c, keyNow := key, commands := rest }) ∧
      (∀ key rest, s.paused = true → s.commands = .stepFwd key :: rest →
        step s = .next { s with current := c, stepPending := true, keyNow := key, commands := rest })

/-- 60_exceptions.md R241, R246, R247: `TOGGLE_PAUSE` flips `paused` and nothing else; `EXEC_TICK` while paused and
`STEP_FWD` while not have no effect. The level of the key input is the model's own field (log 5). -/
def Obligations.PauseGatesTheTicks : Prop :=
  ∀ (s : State) (rest : List Command) (key : Option Key),
    (s.commands = .togglePause :: rest → step s = .next { s with paused := !s.paused, commands := rest }) ∧
    (s.commands = .execTick key :: rest → s.paused = true → step s = .next { s with keyNow := key, commands := rest }) ∧
    (s.commands = .stepFwd key :: rest → s.paused = false → step s = .next { s with keyNow := key, commands := rest })

/-- 60_exceptions.md R230, R231: `TIMER_TICK` decrements both timers of the current state in place, each only if it is
not 0, when running or just stepped (decision D23), and changes nothing else. -/
def Obligations.TimerTickCountsDownInPlace : Prop :=
  ∀ (s : State) (rest : List Command), s.commands = .timerTick :: rest →
    ∃ t, step s = .next t ∧ t.stepPending = false ∧
      (s.paused = false ∨ s.stepPending = true →
        t.cur.dt.toNat = s.cur.dt.toNat - 1 ∧ t.cur.st.toNat = s.cur.st.toNat - 1) ∧
      (s.paused = true → s.stepPending = false → KeepsTimers s t) ∧
      t.cur.pc = s.cur.pc ∧ KeepsRegs [] s t ∧ KeepsIr s t ∧ KeepsStack s t ∧ KeepsDisplay s t ∧ KeepsMem s t ∧
      KeepsKeyWait s t ∧ KeepsDraws s t ∧ t.head = s.head ∧ t.current = s.current ∧ t.totalCycles = s.totalCycles ∧
      t.paused = s.paused ∧ t.straps = s.straps ∧ t.keyNow = s.keyNow ∧ t.commands = rest ∧
      (∀ i, memRead t.pristine i = memRead s.pristine i) ∧ ∀ i : Fin 1000, i ≠ s.current → t.slot i = s.slot i

/-- 60_exceptions.md R248: `STEP_BACK` moves `current` one slot back while an older state is retained, and is refused
as a no-op otherwise; it restores nothing else. The bound is the spec's own (decision D24). -/
def Obligations.StepBackMovesOnlyCurrent : Prop :=
  ∀ (s : State) (rest : List Command), s.commands = .stepBack :: rest →
    ((s.paused = true ∧ (s.head.val + 1000 - s.current.val) % 1000 < min s.totalCycles 999) →
      ∃ c : Fin 1000, (c.val + 1) % 1000 = s.current.val ∧ step s = .next { s with current := c, commands := rest }) ∧
    (¬(s.paused = true ∧ (s.head.val + 1000 - s.current.val) % 1000 < min s.totalCycles 999) →
      step s = .next { s with commands := rest })

/-- 60_exceptions.md R248, R249: from Live and paused, `n` `STEP_BACK`s go exactly as far back as is retained, never
beyond 999 and never beyond the reset state (decision D24 for the exact bound). -/
def Obligations.StepBackReachesOldestRetained : Prop :=
  ∀ (s : State) (n : Nat), s.live → s.paused = true →
    ∃ t, Host.Core.run Sys2Proof.core n (withCommands s (List.replicate n .stepBack)) = .next t ∧
      t.dist = min n (min s.totalCycles 999) ∧ t.dist ≤ 999

/-- 60_exceptions.md R250: `K` committed cycles, then `j` steps back show the state recorded `j` cycles ago, and stepping
forward again shows each recorded state without running anything. -/
def Obligations.HistorySymmetry : Prop :=
  ∀ (f : Nat → State) (keys : Nat → Option Key) (K j : Nat) (key : Option Key),
    K ≤ 999 → j ≤ K → (f 0).live → (f 0).paused = false →
    (∀ k, k < K → execTick { f k with keyNow := keys k } = .next (f (k + 1)) ∧
      (f (k + 1)).totalCycles = (f k).totalCycles + 1) →
    (∃ t, Host.Core.run Sys2Proof.core j (withCommands (togglePause (f K)) (List.replicate j .stepBack)) = .next t ∧
      t.cur = (f (K - j)).cur) ∧
    ∃ u, Host.Core.run Sys2Proof.core (K + j)
        (withCommands (togglePause (f K)) (List.replicate K .stepBack ++ List.replicate j (.stepFwd key))) = .next u ∧
      u.cur = (f j).cur ∧ u.totalCycles = (f K).totalCycles ∧ KeepsMem (f K) u ∧ (j = K → u.live)

/-- 70_reset_and_hazards.md R271: what `RESET` leaves, from any state (decisions D6, D24, D26); the model's own input
fields stay (logs 5, 6). -/
def Obligations.ResetCommandRestoresFreshMachine : Prop :=
  ∀ (s : State) (rest : List Command), s.commands = .reset :: rest →
    ∃ t, step s = .next t ∧ (∀ i, memRead t.mem i = memRead s.pristine i) ∧ (∀ i, memRead t.pristine i = memRead s.pristine i) ∧
      t.cur.pc.toNat = 0x200 ∧ t.cur.ir = 0 ∧ t.cur.dt = 0 ∧ t.cur.st = 0 ∧ t.cur.sp = 0 ∧ (∀ r : Reg, t.cur.reg r = 0) ∧
      (∀ i, i < 16 → t.cur.stackAt i = 0) ∧ (∀ px py, px < 64 → py < 32 → displayPixel t.cur.fb px py = false) ∧
      t.head.val = 0 ∧ t.current.val = 0 ∧ t.totalCycles = 0 ∧ t.waiting = false ∧ t.keyLatch = none ∧ t.stepPending = false ∧
      t.paused = s.paused ∧ t.straps = s.straps ∧ t.keyNow = s.keyNow ∧ t.draws = s.draws ∧ t.commands = rest

/-- 70_reset_and_hazards.md R272: the memory that `LOAD_PROGRAM` leaves: the font, the program from 0x200 as far as it
fits, 0 elsewhere, with the pristine copy equal to it; then a reset (decisions D24, D26, D27, D28, D32). The model's own input fields stay
(logs 4, 5, 6). -/
def Obligations.LoadProgramBuildsMemory : Prop :=
  ∀ (s : State) (bytes : List Byte) (rest : List Command), s.commands = .loadProgram bytes :: rest →
    ∃ t, step s = .next t ∧
      (∀ i, i < 0x50 → memRead t.mem i = Config.fontRom.getD i 0) ∧
      (∀ i, 0x50 ≤ i → i < 0x200 → memRead t.mem i = 0) ∧
      (∀ i, i < bytes.length → 0x200 + i < 4096 → memRead t.mem (0x200 + i) = bytes.getD i 0) ∧
      (∀ i, 0x200 + bytes.length ≤ i → memRead t.mem i = 0) ∧
      (∀ i, memRead t.pristine i = memRead t.mem i) ∧ t.cur = MachineState.fresh ∧ t.head.val = 0 ∧
      t.current.val = 0 ∧ t.totalCycles = 0 ∧ t.waiting = false ∧ t.keyLatch = none ∧ t.stepPending = false ∧
      t.paused = s.paused ∧ t.straps = s.straps ∧ t.keyNow = s.keyNow ∧ t.draws = s.draws ∧ t.commands = rest

/-! ## Whole-machine rules -/

/-- 10_state.md R38, 70_reset_and_hazards.md R270: power-on (decisions D6, D24, D26, D28, D32). -/
def Obligations.PowerOnState : Prop :=
  State.reset.cur.pc.toNat = 0x200 ∧ State.reset.cur.ir = 0 ∧ State.reset.cur.dt = 0 ∧ State.reset.cur.st = 0 ∧
  State.reset.cur.sp = 0 ∧ (∀ r : Reg, State.reset.cur.reg r = 0) ∧ (∀ i, i < 16 → State.reset.cur.stackAt i = 0) ∧
  (∀ px py, px < 64 → py < 32 → displayPixel State.reset.cur.fb px py = false) ∧
  (∀ i, memRead State.reset.mem i = if i < 0x50 then Config.fontRom.getD i 0 else 0) ∧
  (∀ i, memRead State.reset.pristine i = memRead State.reset.mem i) ∧
  State.reset.head.val = 0 ∧ State.reset.current.val = 0 ∧ State.reset.totalCycles = 0 ∧ State.reset.paused = false ∧
  State.reset.waiting = false ∧ State.reset.keyLatch = none ∧ State.reset.stepPending = false ∧ State.reset.halted = true

/-- 10_state.md R45: the invariant holds at power-on. The canonical forms in it are the model's own (logs 7, 10). -/
def Obligations.ResetMeetsInvariant : Prop := State.reset.Inv

/-- 10_state.md R45, 60_exceptions.md R264: every step, whatever the command, keeps the invariant. -/
def Obligations.StepKeepsReachableInvariant : Prop :=
  ∀ s t : State, s.Inv → step s = .next t → t.Inv

/-- 60_exceptions.md R220, R221: no error stops the machine: from every state that meets the invariant a step answers a
next state. -/
def Obligations.EveryStepAnswers : Prop := ∀ s : State, s.Inv → SafeStep s

/-- 00_scope.md R10 (decision D2), 20_memory.md R54: no step changes the straps, and none but a `LOAD_PROGRAM` the pristine copy. -/
def Obligations.StepKeepsStrapsAndPristine : Prop :=
  ∀ s t : State, step s = .next t →
    t.straps = s.straps ∧ ((∀ bytes rest, s.commands ≠ .loadProgram bytes :: rest) → t.pristine = s.pristine)

/-- 40_engine_cycle.md R123, 10_state.md R24: no instruction but `LD DT, Vx` and `LD ST, Vx` changes a timer of the
current state. -/
def Obligations.OnlyTimerLoadsChangeTimers : Prop :=
  ∀ (i : Instr) (s t : State), exec i s = .next t →
    (t.cur.dt ≠ s.cur.dt → ∃ x, i = .ldDtVx x) ∧ (t.cur.st ≠ s.cur.st → ∃ x, i = .ldStVx x)

/-- 20_memory.md R50, 40_engine_cycle.md R122: no instruction but `LD B, Vx` and `LD [I], Vx` changes memory, and a cycle
that commits nothing changes none. -/
def Obligations.OnlyStoresChangeMemory : Prop :=
  ∀ (i : Instr) (s t : State), exec i s = .next t → t.mem ≠ s.mem →
    ((∃ x, i = .ldB x) ∨ ∃ x, i = .stRegs x) ∧ t.totalCycles = s.totalCycles + 1

/-- 10_state.md R25, R29: only `CALL` and `RET` move the stack pointer, by one; only `CLS` and `DRW` change a pixel. -/
def Obligations.OnlyTheirInstructionsMoveStackAndDisplay : Prop :=
  ∀ (i : Instr) (s t : State), exec i s = .next t →
    (t.cur.sp ≠ s.cur.sp → ((∃ nnn, i = .call nnn) ∧ t.cur.sp = s.cur.sp + 1) ∨ (i = .ret ∧ t.cur.sp = s.cur.sp - 1)) ∧
    ((∃ px py, px < 64 ∧ py < 32 ∧ displayPixel t.cur.fb px py ≠ displayPixel s.cur.fb px py) →
      i = .cls ∨ ∃ x y n, i = .drw x y n)

/-- 10_state.md R28, 70_reset_and_hazards.md R281: an instruction whose destination is not VF overwrites VF only if it is
one of the six that report a flag there (decision D9 for those that do not). -/
def Obligations.OnlyFlagInstructionsClobberVf : Prop :=
  ∀ (i : Instr) (s t : State), exec i s = .next t → t.cur.reg 15 ≠ s.cur.reg 15 →
    (∃ x y, i = .addReg x y ∨ i = .sub x y ∨ i = .shr x y ∨ i = .subn x y ∨ i = .shl x y) ∨ (∃ x y n, i = .drw x y n) ∨
    (∃ kk, i = .ldImm 15 kk ∨ i = .addImm 15 kk ∨ i = .rnd 15 kk) ∨
    (∃ y, i = .ldReg 15 y ∨ i = .orReg 15 y ∨ i = .andReg 15 y ∨ i = .xorReg 15 y) ∨
    i = .ldVxDt 15 ∨ i = .ldVxK 15 ∨ i = .ldRegs 15

/-- 10_state.md R41, 45_timers_keys.md R205: only `SKP` and `SKNP` sample the polled key: any other instruction does the
same under every level of it. -/
def Obligations.OnlyKeySkipsSampleTheKey : Prop :=
  ∀ (i : Instr) (s t : State) (key : Option Key), (∀ x, i ≠ .skp x ∧ i ≠ .sknp x) → exec i s = .next t →
    exec i { s with keyNow := key } = .next { t with keyNow := key }

/-- 20_memory.md R65, 60_exceptions.md R244, R251: while Replaying, no command but `RESET` and `LOAD_PROGRAM` touches
memory, the draws, or the commit count, and only `KEY_PRESSED` among the others touches the key latch. -/
def Obligations.ReplayingExecutesNothing : Prop :=
  ∀ (s t : State) (c : Command) (rest : List Command), s.current ≠ s.head → s.commands = c :: rest →
    restartsMachine c = false → step s = .next t →
    t.mem = s.mem ∧ t.pristine = s.pristine ∧ t.draws = s.draws ∧ t.totalCycles = s.totalCycles ∧ t.head = s.head ∧
      t.waiting = s.waiting ∧ ((∀ k, c ≠ .keyPressed k) → t.keyLatch = s.keyLatch) ∧
      ∀ i : Fin 1000, i ≠ s.current → t.slot i = s.slot i
end

