-- ==== Sys2Proof/Laws/Decode.lean ====
section
/-! SUPPORT. The masks of the opcode table as arithmetic on the fields of a word (spec 30_encoding.md R81, R84). -/

namespace Sys2Proof

/-- Bit `k` of a word, by division. -/
theorem getLsbD_div (w : Word) (k : Nat) : w.getLsbD k = decide (w.toNat / 2 ^ k % 2 = 1) := by
  rw [BitVec.getLsbD, Nat.testBit_eq_decide_div_mod_eq]

/-- The mask of the group digit alone. -/
theorem and_mask_group (w : Word) : w &&& 0xF000#16 = BitVec.ofNat 16 (w.toNat / 4096 * 4096) := by
  have hw := w.isLt
  apply BitVec.eq_of_getLsbD_eq
  intro k hk
  rw [BitVec.getLsbD_and, getLsbD_div, getLsbD_div, getLsbD_div, BitVec.toNat_ofNat, BitVec.toNat_ofNat, Bool.eq_iff_iff]
  simp only [Bool.and_eq_true, decide_eq_true_eq]
  interval_cases k <;> omega

/-- The mask of the group digit and the low nibble. -/
theorem and_mask_group_nibble (w : Word) : w &&& 0xF00F#16 = BitVec.ofNat 16 (w.toNat / 4096 * 4096 + w.toNat % 16) := by
  have hw := w.isLt
  apply BitVec.eq_of_getLsbD_eq
  intro k hk
  rw [BitVec.getLsbD_and, getLsbD_div, getLsbD_div, getLsbD_div, BitVec.toNat_ofNat, BitVec.toNat_ofNat, Bool.eq_iff_iff]
  simp only [Bool.and_eq_true, decide_eq_true_eq]
  interval_cases k <;> omega

/-- The mask of the group digit and the low byte. -/
theorem and_mask_group_byte (w : Word) : w &&& 0xF0FF#16 = BitVec.ofNat 16 (w.toNat / 4096 * 4096 + w.toNat % 256) := by
  have hw := w.isLt
  apply BitVec.eq_of_getLsbD_eq
  intro k hk
  rw [BitVec.getLsbD_and, getLsbD_div, getLsbD_div, getLsbD_div, BitVec.toNat_ofNat, BitVec.toNat_ofNat, Bool.eq_iff_iff]
  simp only [Bool.and_eq_true, decide_eq_true_eq]
  interval_cases k <;> omega

end Sys2Proof
end

