-- ==== Sys2Proof/Laws/State.lean ====
section
/-! SUPPORT. One lemma per field per update, true by definition, so that no proof unfolds a record update. -/

namespace Sys2Proof.Machine

/-! ### Updates of the state -/

@[simp] theorem State.commit_hist (s : State) (m : MachineState) : (s.commit m).hist = histWrite s.hist (ringNext s.head).val m := rfl
@[simp] theorem State.commit_head (s : State) (m : MachineState) : (s.commit m).head = ringNext s.head := rfl
@[simp] theorem State.commit_current (s : State) (m : MachineState) : (s.commit m).current = ringNext s.head := rfl
@[simp] theorem State.commit_totalCycles (s : State) (m : MachineState) : (s.commit m).totalCycles = s.totalCycles + 1 := rfl
@[simp] theorem State.commit_mem (s : State) (m : MachineState) : (s.commit m).mem = s.mem := rfl
@[simp] theorem State.commit_pristine (s : State) (m : MachineState) : (s.commit m).pristine = s.pristine := rfl
@[simp] theorem State.commit_paused (s : State) (m : MachineState) : (s.commit m).paused = s.paused := rfl
@[simp] theorem State.commit_waiting (s : State) (m : MachineState) : (s.commit m).waiting = s.waiting := rfl
@[simp] theorem State.commit_keyLatch (s : State) (m : MachineState) : (s.commit m).keyLatch = s.keyLatch := rfl
@[simp] theorem State.commit_stepPending (s : State) (m : MachineState) : (s.commit m).stepPending = s.stepPending := rfl
@[simp] theorem State.commit_straps (s : State) (m : MachineState) : (s.commit m).straps = s.straps := rfl
@[simp] theorem State.commit_keyNow (s : State) (m : MachineState) : (s.commit m).keyNow = s.keyNow := rfl
@[simp] theorem State.commit_draws (s : State) (m : MachineState) : (s.commit m).draws = s.draws := rfl
@[simp] theorem State.commit_commands (s : State) (m : MachineState) : (s.commit m).commands = s.commands := rfl

@[simp] theorem State.editCur_hist (s : State) (m : MachineState) : (s.editCur m).hist = histWrite s.hist s.current.val m := rfl
@[simp] theorem State.editCur_head (s : State) (m : MachineState) : (s.editCur m).head = s.head := rfl
@[simp] theorem State.editCur_current (s : State) (m : MachineState) : (s.editCur m).current = s.current := rfl
@[simp] theorem State.editCur_totalCycles (s : State) (m : MachineState) : (s.editCur m).totalCycles = s.totalCycles := rfl
@[simp] theorem State.editCur_mem (s : State) (m : MachineState) : (s.editCur m).mem = s.mem := rfl
@[simp] theorem State.editCur_pristine (s : State) (m : MachineState) : (s.editCur m).pristine = s.pristine := rfl
@[simp] theorem State.editCur_paused (s : State) (m : MachineState) : (s.editCur m).paused = s.paused := rfl
@[simp] theorem State.editCur_waiting (s : State) (m : MachineState) : (s.editCur m).waiting = s.waiting := rfl
@[simp] theorem State.editCur_keyLatch (s : State) (m : MachineState) : (s.editCur m).keyLatch = s.keyLatch := rfl
@[simp] theorem State.editCur_stepPending (s : State) (m : MachineState) : (s.editCur m).stepPending = s.stepPending := rfl
@[simp] theorem State.editCur_straps (s : State) (m : MachineState) : (s.editCur m).straps = s.straps := rfl
@[simp] theorem State.editCur_keyNow (s : State) (m : MachineState) : (s.editCur m).keyNow = s.keyNow := rfl
@[simp] theorem State.editCur_draws (s : State) (m : MachineState) : (s.editCur m).draws = s.draws := rfl
@[simp] theorem State.editCur_commands (s : State) (m : MachineState) : (s.editCur m).commands = s.commands := rfl

@[simp] theorem State.withMem_hist (s : State) (m : Memory) : (s.withMem m).hist = s.hist := rfl
@[simp] theorem State.withMem_head (s : State) (m : Memory) : (s.withMem m).head = s.head := rfl
@[simp] theorem State.withMem_current (s : State) (m : Memory) : (s.withMem m).current = s.current := rfl
@[simp] theorem State.withMem_totalCycles (s : State) (m : Memory) : (s.withMem m).totalCycles = s.totalCycles := rfl
@[simp] theorem State.withMem_mem (s : State) (m : Memory) : (s.withMem m).mem = m := rfl
@[simp] theorem State.withMem_pristine (s : State) (m : Memory) : (s.withMem m).pristine = s.pristine := rfl
@[simp] theorem State.withMem_paused (s : State) (m : Memory) : (s.withMem m).paused = s.paused := rfl
@[simp] theorem State.withMem_waiting (s : State) (m : Memory) : (s.withMem m).waiting = s.waiting := rfl
@[simp] theorem State.withMem_keyLatch (s : State) (m : Memory) : (s.withMem m).keyLatch = s.keyLatch := rfl
@[simp] theorem State.withMem_stepPending (s : State) (m : Memory) : (s.withMem m).stepPending = s.stepPending := rfl
@[simp] theorem State.withMem_straps (s : State) (m : Memory) : (s.withMem m).straps = s.straps := rfl
@[simp] theorem State.withMem_keyNow (s : State) (m : Memory) : (s.withMem m).keyNow = s.keyNow := rfl
@[simp] theorem State.withMem_draws (s : State) (m : Memory) : (s.withMem m).draws = s.draws := rfl
@[simp] theorem State.withMem_commands (s : State) (m : Memory) : (s.withMem m).commands = s.commands := rfl

@[simp] theorem State.withKeyWait_hist (s : State) (w : Bool) (k : Option Key) : (s.withKeyWait w k).hist = s.hist := rfl
@[simp] theorem State.withKeyWait_head (s : State) (w : Bool) (k : Option Key) : (s.withKeyWait w k).head = s.head := rfl
@[simp] theorem State.withKeyWait_current (s : State) (w : Bool) (k : Option Key) : (s.withKeyWait w k).current = s.current := rfl
@[simp] theorem State.withKeyWait_totalCycles (s : State) (w : Bool) (k : Option Key) : (s.withKeyWait w k).totalCycles = s.totalCycles := rfl
@[simp] theorem State.withKeyWait_mem (s : State) (w : Bool) (k : Option Key) : (s.withKeyWait w k).mem = s.mem := rfl
@[simp] theorem State.withKeyWait_pristine (s : State) (w : Bool) (k : Option Key) : (s.withKeyWait w k).pristine = s.pristine := rfl
@[simp] theorem State.withKeyWait_paused (s : State) (w : Bool) (k : Option Key) : (s.withKeyWait w k).paused = s.paused := rfl
@[simp] theorem State.withKeyWait_waiting (s : State) (w : Bool) (k : Option Key) : (s.withKeyWait w k).waiting = w := rfl
@[simp] theorem State.withKeyWait_keyLatch (s : State) (w : Bool) (k : Option Key) : (s.withKeyWait w k).keyLatch = k := rfl
@[simp] theorem State.withKeyWait_stepPending (s : State) (w : Bool) (k : Option Key) : (s.withKeyWait w k).stepPending = s.stepPending := rfl
@[simp] theorem State.withKeyWait_straps (s : State) (w : Bool) (k : Option Key) : (s.withKeyWait w k).straps = s.straps := rfl
@[simp] theorem State.withKeyWait_keyNow (s : State) (w : Bool) (k : Option Key) : (s.withKeyWait w k).keyNow = s.keyNow := rfl
@[simp] theorem State.withKeyWait_draws (s : State) (w : Bool) (k : Option Key) : (s.withKeyWait w k).draws = s.draws := rfl
@[simp] theorem State.withKeyWait_commands (s : State) (w : Bool) (k : Option Key) : (s.withKeyWait w k).commands = s.commands := rfl

@[simp] theorem State.afterDraw_hist (s : State) : (s.afterDraw).hist = s.hist := rfl
@[simp] theorem State.afterDraw_head (s : State) : (s.afterDraw).head = s.head := rfl
@[simp] theorem State.afterDraw_current (s : State) : (s.afterDraw).current = s.current := rfl
@[simp] theorem State.afterDraw_totalCycles (s : State) : (s.afterDraw).totalCycles = s.totalCycles := rfl
@[simp] theorem State.afterDraw_mem (s : State) : (s.afterDraw).mem = s.mem := rfl
@[simp] theorem State.afterDraw_pristine (s : State) : (s.afterDraw).pristine = s.pristine := rfl
@[simp] theorem State.afterDraw_paused (s : State) : (s.afterDraw).paused = s.paused := rfl
@[simp] theorem State.afterDraw_waiting (s : State) : (s.afterDraw).waiting = s.waiting := rfl
@[simp] theorem State.afterDraw_keyLatch (s : State) : (s.afterDraw).keyLatch = s.keyLatch := rfl
@[simp] theorem State.afterDraw_stepPending (s : State) : (s.afterDraw).stepPending = s.stepPending := rfl
@[simp] theorem State.afterDraw_straps (s : State) : (s.afterDraw).straps = s.straps := rfl
@[simp] theorem State.afterDraw_keyNow (s : State) : (s.afterDraw).keyNow = s.keyNow := rfl
@[simp] theorem State.afterDraw_draws (s : State) : (s.afterDraw).draws = s.draws + 1 := rfl
@[simp] theorem State.afterDraw_commands (s : State) : (s.afterDraw).commands = s.commands := rfl

@[simp] theorem resetMachine_hist (s : State) : (resetMachine s).hist = histWrite s.hist 0 MachineState.fresh := rfl
@[simp] theorem resetMachine_head (s : State) : (resetMachine s).head = 0 := rfl
@[simp] theorem resetMachine_current (s : State) : (resetMachine s).current = 0 := rfl
@[simp] theorem resetMachine_totalCycles (s : State) : (resetMachine s).totalCycles = 0 := rfl
@[simp] theorem resetMachine_mem (s : State) : (resetMachine s).mem = s.pristine := rfl
@[simp] theorem resetMachine_pristine (s : State) : (resetMachine s).pristine = s.pristine := rfl
@[simp] theorem resetMachine_paused (s : State) : (resetMachine s).paused = s.paused := rfl
@[simp] theorem resetMachine_waiting (s : State) : (resetMachine s).waiting = false := rfl
@[simp] theorem resetMachine_keyLatch (s : State) : (resetMachine s).keyLatch = none := rfl
@[simp] theorem resetMachine_stepPending (s : State) : (resetMachine s).stepPending = false := rfl
@[simp] theorem resetMachine_straps (s : State) : (resetMachine s).straps = s.straps := rfl
@[simp] theorem resetMachine_keyNow (s : State) : (resetMachine s).keyNow = s.keyNow := rfl
@[simp] theorem resetMachine_draws (s : State) : (resetMachine s).draws = s.draws := rfl
@[simp] theorem resetMachine_commands (s : State) : (resetMachine s).commands = s.commands := rfl

@[simp] theorem loadProgram_hist (bytes : List Byte) (s : State) : (loadProgram bytes s).hist = histWrite s.hist 0 MachineState.fresh := rfl
@[simp] theorem loadProgram_head (bytes : List Byte) (s : State) : (loadProgram bytes s).head = 0 := rfl
@[simp] theorem loadProgram_current (bytes : List Byte) (s : State) : (loadProgram bytes s).current = 0 := rfl
@[simp] theorem loadProgram_totalCycles (bytes : List Byte) (s : State) : (loadProgram bytes s).totalCycles = 0 := rfl
@[simp] theorem loadProgram_mem (bytes : List Byte) (s : State) : (loadProgram bytes s).mem = loadImage bytes := rfl
@[simp] theorem loadProgram_pristine (bytes : List Byte) (s : State) : (loadProgram bytes s).pristine = loadImage bytes := rfl
@[simp] theorem loadProgram_paused (bytes : List Byte) (s : State) : (loadProgram bytes s).paused = s.paused := rfl
@[simp] theorem loadProgram_waiting (bytes : List Byte) (s : State) : (loadProgram bytes s).waiting = false := rfl
@[simp] theorem loadProgram_keyLatch (bytes : List Byte) (s : State) : (loadProgram bytes s).keyLatch = none := rfl
@[simp] theorem loadProgram_stepPending (bytes : List Byte) (s : State) : (loadProgram bytes s).stepPending = false := rfl
@[simp] theorem loadProgram_straps (bytes : List Byte) (s : State) : (loadProgram bytes s).straps = s.straps := rfl
@[simp] theorem loadProgram_keyNow (bytes : List Byte) (s : State) : (loadProgram bytes s).keyNow = s.keyNow := rfl
@[simp] theorem loadProgram_draws (bytes : List Byte) (s : State) : (loadProgram bytes s).draws = s.draws := rfl
@[simp] theorem loadProgram_commands (bytes : List Byte) (s : State) : (loadProgram bytes s).commands = s.commands := rfl

/-! ### Updates of the Machine State -/

@[simp] theorem MachineState.advance_pc (m : MachineState) : (m.advance).pc = m.pc + 2 := rfl
@[simp] theorem MachineState.advance_ir (m : MachineState) : (m.advance).ir = m.ir := rfl
@[simp] theorem MachineState.advance_dt (m : MachineState) : (m.advance).dt = m.dt := rfl
@[simp] theorem MachineState.advance_st (m : MachineState) : (m.advance).st = m.st := rfl
@[simp] theorem MachineState.advance_sp (m : MachineState) : (m.advance).sp = m.sp := rfl
@[simp] theorem MachineState.advance_v (m : MachineState) : (m.advance).v = m.v := rfl
@[simp] theorem MachineState.advance_stack (m : MachineState) : (m.advance).stack = m.stack := rfl
@[simp] theorem MachineState.advance_fb (m : MachineState) : (m.advance).fb = m.fb := rfl

@[simp] theorem MachineState.jump_pc (m : MachineState) (a : Word) : (m.jump a).pc = a := rfl
@[simp] theorem MachineState.jump_ir (m : MachineState) (a : Word) : (m.jump a).ir = m.ir := rfl
@[simp] theorem MachineState.jump_dt (m : MachineState) (a : Word) : (m.jump a).dt = m.dt := rfl
@[simp] theorem MachineState.jump_st (m : MachineState) (a : Word) : (m.jump a).st = m.st := rfl
@[simp] theorem MachineState.jump_sp (m : MachineState) (a : Word) : (m.jump a).sp = m.sp := rfl
@[simp] theorem MachineState.jump_v (m : MachineState) (a : Word) : (m.jump a).v = m.v := rfl
@[simp] theorem MachineState.jump_stack (m : MachineState) (a : Word) : (m.jump a).stack = m.stack := rfl
@[simp] theorem MachineState.jump_fb (m : MachineState) (a : Word) : (m.jump a).fb = m.fb := rfl

@[simp] theorem MachineState.skipIf_pc (m : MachineState) (c : Bool) : (m.skipIf c).pc = if c then m.pc + 4 else m.pc + 2 := rfl
@[simp] theorem MachineState.skipIf_ir (m : MachineState) (c : Bool) : (m.skipIf c).ir = m.ir := rfl
@[simp] theorem MachineState.skipIf_dt (m : MachineState) (c : Bool) : (m.skipIf c).dt = m.dt := rfl
@[simp] theorem MachineState.skipIf_st (m : MachineState) (c : Bool) : (m.skipIf c).st = m.st := rfl
@[simp] theorem MachineState.skipIf_sp (m : MachineState) (c : Bool) : (m.skipIf c).sp = m.sp := rfl
@[simp] theorem MachineState.skipIf_v (m : MachineState) (c : Bool) : (m.skipIf c).v = m.v := rfl
@[simp] theorem MachineState.skipIf_stack (m : MachineState) (c : Bool) : (m.skipIf c).stack = m.stack := rfl
@[simp] theorem MachineState.skipIf_fb (m : MachineState) (c : Bool) : (m.skipIf c).fb = m.fb := rfl

@[simp] theorem MachineState.withIr_pc (m : MachineState) (a : Word) : (m.withIr a).pc = m.pc := rfl
@[simp] theorem MachineState.withIr_ir (m : MachineState) (a : Word) : (m.withIr a).ir = a := rfl
@[simp] theorem MachineState.withIr_dt (m : MachineState) (a : Word) : (m.withIr a).dt = m.dt := rfl
@[simp] theorem MachineState.withIr_st (m : MachineState) (a : Word) : (m.withIr a).st = m.st := rfl
@[simp] theorem MachineState.withIr_sp (m : MachineState) (a : Word) : (m.withIr a).sp = m.sp := rfl
@[simp] theorem MachineState.withIr_v (m : MachineState) (a : Word) : (m.withIr a).v = m.v := rfl
@[simp] theorem MachineState.withIr_stack (m : MachineState) (a : Word) : (m.withIr a).stack = m.stack := rfl
@[simp] theorem MachineState.withIr_fb (m : MachineState) (a : Word) : (m.withIr a).fb = m.fb := rfl

@[simp] theorem MachineState.withFb_pc (m : MachineState) (fb : Display) : (m.withFb fb).pc = m.pc := rfl
@[simp] theorem MachineState.withFb_ir (m : MachineState) (fb : Display) : (m.withFb fb).ir = m.ir := rfl
@[simp] theorem MachineState.withFb_dt (m : MachineState) (fb : Display) : (m.withFb fb).dt = m.dt := rfl
@[simp] theorem MachineState.withFb_st (m : MachineState) (fb : Display) : (m.withFb fb).st = m.st := rfl
@[simp] theorem MachineState.withFb_sp (m : MachineState) (fb : Display) : (m.withFb fb).sp = m.sp := rfl
@[simp] theorem MachineState.withFb_v (m : MachineState) (fb : Display) : (m.withFb fb).v = m.v := rfl
@[simp] theorem MachineState.withFb_stack (m : MachineState) (fb : Display) : (m.withFb fb).stack = m.stack := rfl
@[simp] theorem MachineState.withFb_fb (m : MachineState) (fb : Display) : (m.withFb fb).fb = fb := rfl

@[simp] theorem MachineState.push_pc (m : MachineState) (a : Word) : (m.push a).pc = m.pc := rfl
@[simp] theorem MachineState.push_ir (m : MachineState) (a : Word) : (m.push a).ir = m.ir := rfl
@[simp] theorem MachineState.push_dt (m : MachineState) (a : Word) : (m.push a).dt = m.dt := rfl
@[simp] theorem MachineState.push_st (m : MachineState) (a : Word) : (m.push a).st = m.st := rfl
@[simp] theorem MachineState.push_sp (m : MachineState) (a : Word) : (m.push a).sp = m.sp + 1 := rfl
@[simp] theorem MachineState.push_v (m : MachineState) (a : Word) : (m.push a).v = m.v := rfl
@[simp] theorem MachineState.push_stack (m : MachineState) (a : Word) : (m.push a).stack = m.stack.setIfInBounds m.sp.toNat a := rfl
@[simp] theorem MachineState.push_fb (m : MachineState) (a : Word) : (m.push a).fb = m.fb := rfl

@[simp] theorem MachineState.popToPc_pc (m : MachineState) : (m.popToPc).pc = m.stackAt (m.sp.toNat - 1) := rfl
@[simp] theorem MachineState.popToPc_ir (m : MachineState) : (m.popToPc).ir = m.ir := rfl
@[simp] theorem MachineState.popToPc_dt (m : MachineState) : (m.popToPc).dt = m.dt := rfl
@[simp] theorem MachineState.popToPc_st (m : MachineState) : (m.popToPc).st = m.st := rfl
@[simp] theorem MachineState.popToPc_sp (m : MachineState) : (m.popToPc).sp = m.sp - 1 := rfl
@[simp] theorem MachineState.popToPc_v (m : MachineState) : (m.popToPc).v = m.v := rfl
@[simp] theorem MachineState.popToPc_stack (m : MachineState) : (m.popToPc).stack = m.stack := rfl
@[simp] theorem MachineState.popToPc_fb (m : MachineState) : (m.popToPc).fb = m.fb := rfl

@[simp] theorem MachineState.setReg_pc (m : MachineState) (x : Reg) (b : Byte) : (m.setReg x b).pc = m.pc := rfl
@[simp] theorem MachineState.setReg_ir (m : MachineState) (x : Reg) (b : Byte) : (m.setReg x b).ir = m.ir := rfl
@[simp] theorem MachineState.setReg_dt (m : MachineState) (x : Reg) (b : Byte) : (m.setReg x b).dt = m.dt := rfl
@[simp] theorem MachineState.setReg_st (m : MachineState) (x : Reg) (b : Byte) : (m.setReg x b).st = m.st := rfl
@[simp] theorem MachineState.setReg_sp (m : MachineState) (x : Reg) (b : Byte) : (m.setReg x b).sp = m.sp := rfl
@[simp] theorem MachineState.setReg_v (m : MachineState) (x : Reg) (b : Byte) : (m.setReg x b).v = m.v.set x.val b := rfl
@[simp] theorem MachineState.setReg_stack (m : MachineState) (x : Reg) (b : Byte) : (m.setReg x b).stack = m.stack := rfl
@[simp] theorem MachineState.setReg_fb (m : MachineState) (x : Reg) (b : Byte) : (m.setReg x b).fb = m.fb := rfl

@[simp] theorem MachineState.loadRegs_pc (m : MachineState) (mem : Memory) (x : Reg) : (m.loadRegs mem x).pc = m.pc := rfl
@[simp] theorem MachineState.loadRegs_ir (m : MachineState) (mem : Memory) (x : Reg) : (m.loadRegs mem x).ir = m.ir := rfl
@[simp] theorem MachineState.loadRegs_dt (m : MachineState) (mem : Memory) (x : Reg) : (m.loadRegs mem x).dt = m.dt := rfl
@[simp] theorem MachineState.loadRegs_st (m : MachineState) (mem : Memory) (x : Reg) : (m.loadRegs mem x).st = m.st := rfl
@[simp] theorem MachineState.loadRegs_sp (m : MachineState) (mem : Memory) (x : Reg) : (m.loadRegs mem x).sp = m.sp := rfl
@[simp] theorem MachineState.loadRegs_v (m : MachineState) (mem : Memory) (x : Reg) : (m.loadRegs mem x).v = Vector.ofFn fun i => if i.val ≤ x.val then memRead mem (m.dataAddr i.val) else m.v[i.val] := rfl
@[simp] theorem MachineState.loadRegs_stack (m : MachineState) (mem : Memory) (x : Reg) : (m.loadRegs mem x).stack = m.stack := rfl
@[simp] theorem MachineState.loadRegs_fb (m : MachineState) (mem : Memory) (x : Reg) : (m.loadRegs mem x).fb = m.fb := rfl

@[simp] theorem MachineState.tick_pc (m : MachineState) : (m.tick).pc = m.pc := rfl
@[simp] theorem MachineState.tick_ir (m : MachineState) : (m.tick).ir = m.ir := rfl
@[simp] theorem MachineState.tick_dt (m : MachineState) : (m.tick).dt = countDown m.dt := rfl
@[simp] theorem MachineState.tick_st (m : MachineState) : (m.tick).st = countDown m.st := rfl
@[simp] theorem MachineState.tick_sp (m : MachineState) : (m.tick).sp = m.sp := rfl
@[simp] theorem MachineState.tick_v (m : MachineState) : (m.tick).v = m.v := rfl
@[simp] theorem MachineState.tick_stack (m : MachineState) : (m.tick).stack = m.stack := rfl
@[simp] theorem MachineState.tick_fb (m : MachineState) : (m.tick).fb = m.fb := rfl

@[simp] theorem MachineState.indexInc_pc (m : MachineState) (q : Bool) (x : Reg) : (m.indexInc q x).pc = m.pc := by
  cases q <;> rfl
@[simp] theorem MachineState.indexInc_ir (m : MachineState) (q : Bool) (x : Reg) : (m.indexInc q x).ir = if q then m.ir + BitVec.ofNat 16 (x.val + 1) else m.ir := by
  cases q <;> rfl
@[simp] theorem MachineState.indexInc_dt (m : MachineState) (q : Bool) (x : Reg) : (m.indexInc q x).dt = m.dt := by
  cases q <;> rfl
@[simp] theorem MachineState.indexInc_st (m : MachineState) (q : Bool) (x : Reg) : (m.indexInc q x).st = m.st := by
  cases q <;> rfl
@[simp] theorem MachineState.indexInc_sp (m : MachineState) (q : Bool) (x : Reg) : (m.indexInc q x).sp = m.sp := by
  cases q <;> rfl
@[simp] theorem MachineState.indexInc_v (m : MachineState) (q : Bool) (x : Reg) : (m.indexInc q x).v = m.v := by
  cases q <;> rfl
@[simp] theorem MachineState.indexInc_stack (m : MachineState) (q : Bool) (x : Reg) : (m.indexInc q x).stack = m.stack := by
  cases q <;> rfl
@[simp] theorem MachineState.indexInc_fb (m : MachineState) (q : Bool) (x : Reg) : (m.indexInc q x).fb = m.fb := by
  cases q <;> rfl

@[simp] theorem MachineState.writeResultAndFlag_pc (m : MachineState) (p : VfPriority) (x : Reg) (b : Byte) (c : Bool) :
    (m.writeResultAndFlag p x b c).pc = m.pc := by
  cases p <;> rfl
@[simp] theorem MachineState.writeResultAndFlag_ir (m : MachineState) (p : VfPriority) (x : Reg) (b : Byte) (c : Bool) :
    (m.writeResultAndFlag p x b c).ir = m.ir := by
  cases p <;> rfl
@[simp] theorem MachineState.writeResultAndFlag_dt (m : MachineState) (p : VfPriority) (x : Reg) (b : Byte) (c : Bool) :
    (m.writeResultAndFlag p x b c).dt = m.dt := by
  cases p <;> rfl
@[simp] theorem MachineState.writeResultAndFlag_st (m : MachineState) (p : VfPriority) (x : Reg) (b : Byte) (c : Bool) :
    (m.writeResultAndFlag p x b c).st = m.st := by
  cases p <;> rfl
@[simp] theorem MachineState.writeResultAndFlag_sp (m : MachineState) (p : VfPriority) (x : Reg) (b : Byte) (c : Bool) :
    (m.writeResultAndFlag p x b c).sp = m.sp := by
  cases p <;> rfl
@[simp] theorem MachineState.writeResultAndFlag_stack (m : MachineState) (p : VfPriority) (x : Reg) (b : Byte) (c : Bool) :
    (m.writeResultAndFlag p x b c).stack = m.stack := by
  cases p <;> rfl
@[simp] theorem MachineState.writeResultAndFlag_fb (m : MachineState) (p : VfPriority) (x : Reg) (b : Byte) (c : Bool) :
    (m.writeResultAndFlag p x b c).fb = m.fb := by
  cases p <;> rfl

/-! ### What these updates leave of the derived reads -/

@[simp] theorem State.withMem_cur (s : State) (m : Memory) : (s.withMem m).cur = s.cur := rfl

@[simp] theorem State.withMem_slot (s : State) (m : Memory) (i : Fin 1000) : (s.withMem m).slot i = s.slot i := rfl

@[simp] theorem State.withKeyWait_cur (s : State) (w : Bool) (k : Option Key) : (s.withKeyWait w k).cur = s.cur := rfl

@[simp] theorem State.withKeyWait_slot (s : State) (w : Bool) (k : Option Key) (i : Fin 1000) :
    (s.withKeyWait w k).slot i = s.slot i := rfl

@[simp] theorem State.afterDraw_cur (s : State) : s.afterDraw.cur = s.cur := rfl

@[simp] theorem State.afterDraw_slot (s : State) (i : Fin 1000) : s.afterDraw.slot i = s.slot i := rfl

end Sys2Proof.Machine
end

