-- ==== Sys2Proof/Laws/Store.lean ====
section
/-! SUPPORT. The laws of the sparse lists: reading after writing, and that every memory operation and every history
write keeps the canonical form. -/

namespace Sys2Proof.Machine

section Sparse

variable {α : Type}

/-- Reading after inserting. -/
theorem sparseFind_sparseInsert (l : List (Nat × α)) (a : Nat) (b : α) (i : Nat) :
    sparseFind (sparseInsert l a b) i = if a = i then some b else sparseFind l i := by
  induction l with
  | nil => simp [sparseInsert, sparseFind]
  | cons e rest ih =>
    obtain ⟨k, x⟩ := e
    simp only [sparseInsert]
    split
    · simp [sparseFind]
    · split
      · subst a
        simp only [sparseFind]
        split <;> simp_all
      · simp only [sparseFind, ih]
        split
        · rw [if_neg (by omega)]
        · rfl

/-- Reading after erasing. -/
theorem sparseFind_sparseErase (l : List (Nat × α)) (a i : Nat) :
    sparseFind (sparseErase l a) i = if a = i then none else sparseFind l i := by
  induction l with
  | nil => simp [sparseErase, sparseFind]
  | cons e rest ih =>
    obtain ⟨k, x⟩ := e
    simp only [sparseErase, List.filter_cons] at ih ⊢
    by_cases hk : k = a
    · subst hk
      simp only [bne_self_eq_false, Bool.false_eq_true, if_false, ih, sparseFind]
      split <;> rfl
    · simp only [bne_iff_ne, ne_eq, hk, not_false_eq_true, if_true, sparseFind, ih]
      split
      · rw [if_neg (by omega)]
      · rfl

/-- What an insertion lists. -/
theorem mem_sparseInsert {l : List (Nat × α)} {a : Nat} {b : α} {e : Nat × α} (h : e ∈ sparseInsert l a b) :
    e = (a, b) ∨ e ∈ l := by
  induction l with
  | nil => simp_all [sparseInsert]
  | cons f rest ih =>
    simp only [sparseInsert] at h
    split at h
    · simpa using h
    · split at h <;> simp only [List.mem_cons] at h ⊢ <;> grind

theorem sparseInsert_sorted {l : List (Nat × α)} (h : SparseSorted l) (a : Nat) (b : α) :
    SparseSorted (sparseInsert l a b) := by
  induction l with
  | nil => simp [sparseInsert]
  | cons f rest ih =>
    obtain ⟨hf, hr⟩ := List.pairwise_cons.mp h
    simp only [sparseInsert]
    split
    · refine List.pairwise_cons.mpr ⟨fun e he => ?_, h⟩
      rcases List.mem_cons.mp he with rfl | he
      · assumption
      · exact lt_trans ‹_› (hf e he)
    · split
      · exact List.pairwise_cons.mpr ⟨fun e he => by have := hf e he; simp_all, hr⟩
      · refine List.pairwise_cons.mpr ⟨fun e he => ?_, ih hr⟩
        rcases mem_sparseInsert he with rfl | he
        · simp only; omega
        · exact hf e he

theorem sparseErase_sorted {l : List (Nat × α)} (h : SparseSorted l) (a : Nat) : SparseSorted (sparseErase l a) :=
  h.filter _

end Sparse

/-! ### Memory -/

/-- A read outside the 4096 bytes gives 0 (R53). -/
theorem memRead_outside (m : Memory) {a : Nat} (h : 4096 ≤ a) : memRead m a = 0 := by
  simp [memRead, Nat.not_lt.mpr h]

/-- Reading after writing a byte (R53, R54). -/
theorem memRead_memWrite (m : Memory) (a : Nat) (b : Byte) (i : Nat) :
    memRead (memWrite m a b) i = if a = i ∧ a < 4096 then b else memRead m i := by
  unfold memWrite memRead
  by_cases ha : a < 4096
  · by_cases hb : b = powerOnByte a
    · simp only [ha, hb, if_true, sparseFind_sparseErase, and_true]
      by_cases hi : a = i
      · subst hi; simp [ha]
      · simp [hi]
    · simp only [ha, hb, if_true, if_false, sparseFind_sparseInsert, and_true]
      by_cases hi : a = i
      · subst hi; simp [ha]
      · simp [hi]
  · simp [ha]

/-- Reading after writing a run of bytes: the byte of the run where it covers the address inside memory. -/
theorem memRead_memWriteBytes (m : Memory) (a : Nat) (bs : List Byte) (i : Nat) :
    memRead (memWriteBytes m a bs) i =
      if a ≤ i ∧ i < a + bs.length ∧ i < 4096 then bs.getD (i - a) 0 else memRead m i := by
  induction bs generalizing m a with
  | nil => simp only [memWriteBytes, List.length_nil]; rw [if_neg (by omega)]
  | cons b rest ih =>
    simp only [memWriteBytes, ih, memRead_memWrite, List.length_cons]
    by_cases h1 : a = i
    · subst h1
      rw [if_neg (by omega)]
      by_cases h4 : a < 4096
      · rw [if_pos ⟨rfl, h4⟩, if_pos ⟨le_refl _, by omega, h4⟩]; simp
      · rw [if_neg (by simp [h4]), if_neg (by omega)]
    · by_cases h2 : a + 1 ≤ i ∧ i < a + 1 + rest.length ∧ i < 4096
      · rw [if_pos h2, if_pos (by omega), show i - a = (i - (a + 1)) + 1 by omega]; simp
      · rw [if_neg h2, if_neg (by simp [h1]), if_neg (by omega)]

theorem memWrite_wf {m : Memory} (h : Memory.wf m) (a : Nat) (b : Byte) : Memory.wf (memWrite m a b) := by
  unfold memWrite
  split
  · split
    · exact ⟨sparseErase_sorted h.1 a, fun c hc => h.2 c (List.mem_of_mem_filter hc)⟩
    · refine ⟨sparseInsert_sorted h.1 a b, fun c hc => ?_⟩
      rcases mem_sparseInsert hc with rfl | hc
      · exact ⟨‹_›, ‹_›⟩
      · exact h.2 c hc
  · exact h

theorem memWriteBytes_wf {m : Memory} (h : Memory.wf m) (a : Nat) (bs : List Byte) :
    Memory.wf (memWriteBytes m a bs) := by
  induction bs generalizing m a with
  | nil => exact h
  | cons b rest ih => exact ih (memWrite_wf h a b) (a + 1)

theorem memory_nil_wf : Memory.wf [] := by decide

theorem loadImage_wf (bytes : List Byte) : Memory.wf (loadImage bytes) := memWriteBytes_wf memory_nil_wf _ _

theorem reset_mem_wf : Memory.wf State.reset.mem := memory_nil_wf

theorem sparseFind_of_mem {α : Type} {l : List (Nat × α)} (h : SparseSorted l) {e : Nat × α} (he : e ∈ l) :
    sparseFind l e.1 = some e.2 := by
  induction l with
  | nil => simp at he
  | cons f rest ih =>
    obtain ⟨hf, hr⟩ := List.pairwise_cons.mp h
    rcases List.mem_cons.mp he with rfl | he
    · simp [sparseFind]
    · have := hf e he
      simp only [sparseFind]
      rw [if_neg (by omega)]
      exact ih hr he

theorem mem_of_sparseFind {α : Type} {l : List (Nat × α)} {a : Nat} {b : α} (h : sparseFind l a = some b) :
    (a, b) ∈ l := by
  induction l with
  | nil => simp [sparseFind] at h
  | cons f rest ih =>
    obtain ⟨k, x⟩ := f
    simp only [sparseFind] at h
    split at h
    · simp_all
    · exact List.mem_cons_of_mem _ (ih h)

/-! ### The history ring -/

/-- Reading a slot after writing one. -/
theorem histRead_histWrite (h : History) (i j : Nat) (m : MachineState) :
    histRead (histWrite h i m) j = if i = j then m else histRead h j := by
  unfold histRead histWrite
  rw [sparseFind_sparseInsert]
  split <;> rfl

theorem histWrite_wf {h : History} (hw : History.wf h) {i : Nat} (hi : i < 1000) (m : MachineState) :
    History.wf (histWrite h i m) := by
  refine ⟨sparseInsert_sorted hw.1 i m, fun e he => ?_⟩
  rcases mem_sparseInsert he with rfl | he
  · exact hi
  · exact hw.2 e he

end Sys2Proof.Machine
end

