-- ==== Sys2Proof/Laws/Operands.lean ====
section
/-! SUPPORT. The laws of the operand forms and the flag computations: registers, the ring, the stack, the display. -/

namespace Sys2Proof.Machine

/-! ### Registers -/

@[simp] theorem MachineState.reg_setReg (m : MachineState) (x r : Reg) (b : Byte) :
    (m.setReg x b).reg r = if r = x then b else m.reg r := by
  simp only [MachineState.reg, MachineState.setReg, Vector.getElem_set]
  by_cases h : r = x
  · simp [h]
  · rw [if_neg (fun e => h (Fin.ext e.symm)), if_neg h]

/-- The two writes of R121: with `x = 15` the priority decides. -/
theorem MachineState.reg_writeResultAndFlag (m : MachineState) (p : VfPriority) (x r : Reg) (b : Byte) (f : Bool) :
    (m.writeResultAndFlag p x b f).reg r =
      if r = vf then (if x = vf ∧ p = .result then b else flagByte f) else if r = x then b else m.reg r := by
  cases p with
  | flag => simp [MachineState.writeResultAndFlag]
  | result =>
    simp only [MachineState.writeResultAndFlag, MachineState.reg_setReg, and_true]
    by_cases hx : r = x
    · subst hx; by_cases hv : r = vf <;> simp [hv]
    · by_cases hv : r = vf
      · subst hv; simp [hx, Ne.symm hx]
      · simp [hx, hv]

@[simp] theorem MachineState.reg_loadRegs (m : MachineState) (mem : Memory) (x r : Reg) :
    (m.loadRegs mem x).reg r = if r.val ≤ x.val then memRead mem (m.dataAddr r.val) else m.reg r := by
  simp only [MachineState.reg, MachineState.loadRegs, Vector.getElem_ofFn]

@[simp] theorem MachineState.reg_advance (m : MachineState) (r : Reg) : m.advance.reg r = m.reg r := rfl
@[simp] theorem MachineState.reg_jump (m : MachineState) (a : Word) (r : Reg) : (m.jump a).reg r = m.reg r := rfl
@[simp] theorem MachineState.reg_skipIf (m : MachineState) (c : Bool) (r : Reg) : (m.skipIf c).reg r = m.reg r := rfl
@[simp] theorem MachineState.reg_withIr (m : MachineState) (a : Word) (r : Reg) : (m.withIr a).reg r = m.reg r := rfl
@[simp] theorem MachineState.reg_withFb (m : MachineState) (fb : Display) (r : Reg) : (m.withFb fb).reg r = m.reg r := rfl
@[simp] theorem MachineState.reg_push (m : MachineState) (a : Word) (r : Reg) : (m.push a).reg r = m.reg r := rfl
@[simp] theorem MachineState.reg_popToPc (m : MachineState) (r : Reg) : m.popToPc.reg r = m.reg r := rfl
@[simp] theorem MachineState.reg_tick (m : MachineState) (r : Reg) : m.tick.reg r = m.reg r := rfl

@[simp] theorem MachineState.reg_indexInc (m : MachineState) (q : Bool) (x r : Reg) : (m.indexInc q x).reg r = m.reg r := by
  cases q <;> rfl

/-- The registers `v[0..x]` as a list. -/
@[simp] theorem MachineState.regsUpTo_length (m : MachineState) (x : Reg) : (m.regsUpTo x).length = x.val + 1 := by
  simp only [MachineState.regsUpTo, List.length_take, Vector.length_toList]; omega

theorem MachineState.regsUpTo_getD (m : MachineState) (x : Reg) (i : Nat) (h : i ≤ x.val) :
    (m.regsUpTo x).getD i 0 = m.reg ⟨i, by omega⟩ := by
  have hx : i < 16 := by omega
  simp only [MachineState.regsUpTo, MachineState.reg, List.getD_eq_getElem?_getD]
  rw [List.getElem?_take_of_lt (by omega), List.getElem?_eq_getElem (by simpa using hx)]
  simp

/-! ### The stack -/

theorem MachineState.stackAt_push (m : MachineState) (a : Word) (i : Nat) (h : m.sp.toNat < Config.stackDepth) :
    (m.push a).stackAt i = if i = m.sp.toNat then a else m.stackAt i := by
  simp only [MachineState.stackAt, MachineState.push_stack, Vector.getElem_setIfInBounds]
  by_cases hi : i = m.sp.toNat
  · simp [hi, h]
  · simp [hi, Ne.symm hi]

/-- Two Machine States with one stack read alike. -/
theorem MachineState.stackAt_congr {m n : MachineState} (h : m.stack = n.stack) (i : Nat) : m.stackAt i = n.stackAt i := by
  simp [MachineState.stackAt, h]

/-! ### The ring -/

@[simp] theorem ringPrev_ringNext (i : Fin 1000) : ringPrev (ringNext i) = i := by
  apply Fin.ext; simp only [ringPrev, ringNext]; omega

@[simp] theorem ringNext_ringPrev (i : Fin 1000) : ringNext (ringPrev i) = i := by
  apply Fin.ext; simp only [ringPrev, ringNext]; omega

@[simp] theorem State.slot_commit (s : State) (m : MachineState) (i : Fin 1000) :
    (s.commit m).slot i = if i = ringNext s.head then m else s.slot i := by
  simp only [State.slot, State.commit_hist, histRead_histWrite]
  by_cases h : i = ringNext s.head
  · simp [h]
  · rw [if_neg (fun e => h (Fin.ext e.symm)), if_neg h]

@[simp] theorem State.cur_commit (s : State) (m : MachineState) : (s.commit m).cur = m := by
  simp [State.cur]

@[simp] theorem State.slot_editCur (s : State) (m : MachineState) (i : Fin 1000) :
    (s.editCur m).slot i = if i = s.current then m else s.slot i := by
  simp only [State.slot, State.editCur_hist, histRead_histWrite]
  by_cases h : i = s.current
  · simp [h]
  · rw [if_neg (fun e => h (Fin.ext e.symm)), if_neg h]

@[simp] theorem State.cur_editCur (s : State) (m : MachineState) : (s.editCur m).cur = m := by
  simp [State.cur]

@[simp] theorem State.slot_withMem (s : State) (m : Memory) (i : Fin 1000) : (s.withMem m).slot i = s.slot i := rfl
@[simp] theorem State.slot_withKeyWait (s : State) (w : Bool) (k : Option Key) (i : Fin 1000) : (s.withKeyWait w k).slot i = s.slot i := rfl
@[simp] theorem State.slot_afterDraw (s : State) (i : Fin 1000) : s.afterDraw.slot i = s.slot i := rfl
@[simp] theorem State.cur_withMem (s : State) (m : Memory) : (s.withMem m).cur = s.cur := rfl
@[simp] theorem State.cur_withKeyWait (s : State) (w : Bool) (k : Option Key) : (s.withKeyWait w k).cur = s.cur := rfl
@[simp] theorem State.cur_afterDraw (s : State) : s.afterDraw.cur = s.cur := rfl

theorem State.slot_zero_after_reset (h : History) (i : Fin 1000) :
    histRead (histWrite h 0 MachineState.fresh) i.val = if i = 0 then MachineState.fresh else histRead h i.val := by
  rw [histRead_histWrite]
  by_cases hi : i = 0
  · simp [hi]
  · rw [if_neg (fun e => hi (Fin.ext e.symm)), if_neg hi]

theorem State.dist_of_live {s : State} (h : s.live) : s.dist = 0 := by
  simp only [State.live] at h
  simp only [State.dist, h]; omega

/-! ### Outcomes -/

@[simp] theorem update_eq_next {s t : State} {m : MachineState} : update s m = .next t ↔ t = s.commit m := by
  simp [update, eq_comm]

@[simp] theorem haltInPlace_eq_next {s t : State} : haltInPlace s = .next t ↔ t = s := by
  simp [haltInPlace, eq_comm]

/-! ### Display -/

/-- A row of the display after an XOR. -/
theorem displayRow_xorDisplay (fb : Display) (mask : Nat → BitVec 64) (py : Nat) :
    displayRow (xorDisplay fb mask) py = if py < 32 then displayRow fb py ^^^ mask py else 0 := by
  by_cases h : py < 32 <;> simp [displayRow, xorDisplay, h]

/-- A pixel after an XOR: it turns over exactly where the mask has a 1. -/
theorem displayPixel_xorDisplay (fb : Display) (mask : Nat → BitVec 64) (px py : Nat) (h : py < 32) :
    displayPixel (xorDisplay fb mask) px py = (displayPixel fb px py ^^ (mask py).getMsbD px) := by
  simp [displayPixel, displayRow_xorDisplay, h]

/-- The pixel a sprite row byte puts at a column (R186, R189). -/
theorem spriteRow_getMsbD (x0 : Nat) (b : Byte) (px : Nat) :
    (spriteRow x0 b).getMsbD px = (decide (px < 64) && decide (x0 ≤ px) && decide (px < x0 + 8) && b.getMsbD (px - x0)) := by
  simp only [spriteRow, BitVec.getMsbD_ushiftRight, BitVec.getMsbD_shiftLeft, BitVec.getMsbD_setWidth]
  have hout : ¬ px - x0 < 8 → b.getMsbD (px - x0) = false := fun h => by simp [BitVec.getMsbD, h]
  by_cases h1 : px < 64 <;> by_cases h2 : x0 ≤ px <;> by_cases h3 : px < x0 + 8 <;> simp [h1, h2, h3] <;>
    (first | omega | exact hout (by omega))

/-- The mask of a sprite, pixel by pixel (R187). -/
theorem spriteMask_getMsbD (mem : Memory) (a x0 y0 n px py : Nat) :
    (spriteMask mem a x0 y0 n py).getMsbD px =
      (decide (y0 ≤ py ∧ py < y0 + n) &&
        (decide (px < 64) && decide (x0 ≤ px) && decide (px < x0 + 8) && (memRead mem (a + (py - y0))).getMsbD (px - x0))) := by
  unfold spriteMask
  split
  · simp [spriteRow_getMsbD, *]
  · simp [*]

theorem startCoord_lt (size : Nat) (b : Byte) (h : 0 < size) : startCoord size b < size := by
  unfold startCoord; split <;> assumption

/-- The collision of a whole draw (R191): some pixel of the grid is set and turned over. -/
theorem collisionFlag_iff (fb : Display) (mask : Nat → BitVec 64) :
    collisionFlag fb mask = true ↔
      ∃ px py, px < 64 ∧ py < 32 ∧ displayPixel fb px py = true ∧ (mask py).getMsbD px = true := by
  simp only [collisionFlag, List.any_eq_true, List.mem_range, bne_iff_ne, ne_eq, displayPixel]
  constructor
  · rintro ⟨py, hpy, hne⟩
    by_contra hcon
    apply hne
    apply BitVec.eq_of_getMsbD_eq
    intro i hi
    by_contra h
    simp only [BitVec.ofNat_eq_ofNat, BitVec.getMsbD_and, BitVec.getMsbD_zero, Bool.not_eq_false, Bool.and_eq_true] at h
    exact hcon ⟨i, py, hi, hpy, h.1, h.2⟩
  · rintro ⟨px, py, hpx, hpy, h1, h2⟩
    refine ⟨py, hpy, fun he => ?_⟩
    have := congrArg (BitVec.getMsbD · px) he
    simp [h1, h2] at this

end Sys2Proof.Machine
end

