-- ==== Sys2Proof/Laws/Engine.lean ====
section
/-! SUPPORT. What the meanings, the cycle and the commands can do, said once: the inversion lemma of `exec`, the fetch,
the word placed for the next fetch, and the frames of the commands. -/

namespace Sys2Proof.Machine

/-! ### Words and bytes -/

@[simp] theorem wordOfBytes_toNat (hi lo : Byte) : (wordOfBytes hi lo).toNat = hi.toNat * 256 + lo.toNat := by
  have h1 := hi.isLt
  have h2 := lo.isLt
  simp only [wordOfBytes, BitVec.toNat_ofNat]
  omega

@[simp] theorem wordOfBytes_high_low (w : Word) : wordOfBytes (highByte w) (lowByte w) = w := by
  have h := w.isLt
  apply BitVec.eq_of_toNat_eq
  simp only [wordOfBytes_toNat, highByte, lowByte, BitVec.toNat_ofNat]
  omega

/-- A word that decodes is not the zero word (R89). -/
theorem ne_zero_of_decodeWord_ok {w : Word} {i : Instr} (h : decodeWord w = .ok i) : w ≠ 0 := by
  rintro rfl; simp [decodeWord] at h

/-! ### Fetch -/

/-- Fetch beyond memory gives the zero word (R57, R138). -/
theorem fetchWord_outside {s : State} (h : 4096 ≤ s.cur.pc.toNat) : fetchWord s = 0 := by
  apply BitVec.eq_of_toNat_eq
  simp [fetchWord, memReadWord, memRead_outside s.mem h, memRead_outside s.mem (Nat.le_succ_of_le h)]

/-- A word that decodes was fetched inside memory (R138). -/
theorem pc_lt_of_decodes {s : State} {i : Instr} (h : decodeWord (fetchWord s) = .ok i) : s.cur.pc.toNat < 4096 := by
  by_contra hc
  exact ne_zero_of_decodeWord_ok h (fetchWord_outside (by omega))

/-- Reading the word that was just written, inside memory (R64). -/
theorem memReadWord_memWriteBytes (m : Memory) (a : Nat) (w : Word) (h : a < 4095) :
    memReadWord (memWriteBytes m a [highByte w, lowByte w]) a = w := by
  have h1 : memRead (memWriteBytes m a [highByte w, lowByte w]) a = highByte w := by
    rw [memRead_memWriteBytes, if_pos (by simp; omega)]; simp
  have h2 : memRead (memWriteBytes m a [highByte w, lowByte w]) (a + 1) = lowByte w := by
    rw [memRead_memWriteBytes, if_pos (by simp; omega)]; simp
  rw [memReadWord, h1, h2, wordOfBytes_high_low]

/-! ### The Live step -/

/-- On a word that decodes, the Live step runs that instruction (R114). -/
theorem liveStep_of_decodes {s : State} {i : Instr} (h : decodeWord (fetchWord s) = .ok i) : liveStep s = exec i s := by
  rw [liveStep, if_neg (ne_zero_of_decodeWord_ok h), h]

/-- On any other word it halts in place (R112, R113). -/
theorem liveStep_of_rejects {s : State} {e : Reject} (h : decodeWord (fetchWord s) = .error e) : liveStep s = .next s := by
  rw [liveStep, h]; split <;> rfl

/-- `EXEC_TICK` on a Live, unpaused machine is the Live step (R244, R246). -/
theorem execTick_of_live {s : State} (hl : s.live) (hp : s.paused = false) : execTick s = liveStep s := by
  rw [execTick, hp, engineStep, if_pos hl]; rfl

/-! ### What an instruction can do -/

/-- Everything a meaning can answer that is a next state. Either nothing changed (a halt in place), or the key wait
began, or a Machine State was committed on top of `s` with at most its memory, its key wait or its draw count
changed. -/
theorem exec_cases {i : Instr} {s t : State} (h : exec i s = .next t) :
    t = s ∨ (s.keyLatch = none ∧ (∃ x, i = .ldVxK x) ∧ t = s.withKeyWait true none) ∨
    ∃ m, t = s.commit m ∨
      ((∃ x, i = .ldB x ∨ i = .stRegs x) ∧ ∃ bs, t = (s.withMem (memWriteBytes s.mem (s.cur.dataAddr 0) bs)).commit m) ∨
      ((∃ x kk, i = .rnd x kk) ∧ t = s.afterDraw.commit m) ∨
      ((∃ x, i = .ldVxK x) ∧ s.keyLatch ≠ none ∧ t = (s.withKeyWait false none).commit m) := by
  cases i <;> simp only [exec, execCls, execSeImm, execSneImm, execSeReg, execSneReg, execLdImm, execAddImm, execLdReg,
    execOrReg, execAndReg, execXorReg, execAddReg, execSub, execShr, execSubn, execShl, execLdI, execJpV0, execDrw, execSkp,
    execSknp, execLdVxDt, execLdDtVx, execLdStVx, execAddI, execLdF, execLdRegs, updateReg, updateRegFlag,
    update_eq_next] at h
  case ret =>
    unfold execRet at h
    split at h
    · exact .inl (haltInPlace_eq_next.mp h)
    · split at h
      · cases h
      · exact .inr (.inr ⟨_, .inl (update_eq_next.mp h)⟩)
  case jp nnn =>
    unfold execJp at h
    split at h
    · exact .inl (haltInPlace_eq_next.mp h)
    · exact .inr (.inr ⟨_, .inl (update_eq_next.mp h)⟩)
  case call nnn =>
    unfold execCall at h
    split at h
    · exact .inl (haltInPlace_eq_next.mp h)
    · split at h
      · cases h
      · exact .inr (.inr ⟨_, .inl (update_eq_next.mp h)⟩)
  case rnd x kk =>
    simp only [execRnd, updateReg, update_eq_next] at h
    exact .inr (.inr ⟨_, .inr (.inr (.inl ⟨⟨x, kk, rfl⟩, h⟩))⟩)
  case ldB x =>
    simp only [execLdB, update_eq_next] at h
    exact .inr (.inr ⟨_, .inr (.inl ⟨⟨x, .inl rfl⟩, _, h⟩)⟩)
  case stRegs x =>
    simp only [execStRegs, update_eq_next] at h
    exact .inr (.inr ⟨_, .inr (.inl ⟨⟨x, .inr rfl⟩, _, h⟩)⟩)
  case ldVxK x =>
    unfold execLdVxK at h
    split at h
    · rename_i hk
      simp only [Host.Outcome.next.injEq] at h
      exact .inr (.inl ⟨hk, ⟨x, rfl⟩, h.symm⟩)
    · rename_i k hk
      exact .inr (.inr ⟨_, .inr (.inr (.inr ⟨⟨x, rfl⟩, by simp [hk], update_eq_next.mp h⟩))⟩)
  all_goals exact .inr (.inr ⟨_, .inl h⟩)

/-- No instruction is refused (every arm of `exec` is a meaning). -/
theorem exec_not_refused (i : Instr) (s : State) (r : Refusal) : exec i s ≠ .refused r := by
  cases i <;> simp only [exec, execCls, execSeImm, execSneImm, execSeReg, execSneReg, execLdImm, execAddImm, execLdReg,
    execOrReg, execAndReg, execXorReg, execAddReg, execSub, execShr, execSubn, execShl, execLdI, execJpV0, execDrw, execSkp,
    execSknp, execLdVxDt, execLdDtVx, execLdStVx, execAddI, execLdF, execLdRegs, execRnd, execLdB, execStRegs, execRet,
    execJp, execCall, execLdVxK, updateReg, updateRegFlag, update, haltInPlace] <;> (repeat' split) <;> simp

/-- A meaning faults only with `sp` above the depth (log 8). -/
theorem exec_fault {i : Instr} {s : State} {r : Fault} (h : exec i s = .fault r) : Config.stackDepth < s.cur.sp.toNat := by
  cases i <;> simp only [exec, execCls, execSeImm, execSneImm, execSeReg, execSneReg, execLdImm, execAddImm, execLdReg,
    execOrReg, execAndReg, execXorReg, execAddReg, execSub, execShr, execSubn, execShl, execLdI, execJpV0, execDrw, execSkp,
    execSknp, execLdVxDt, execLdDtVx, execLdStVx, execAddI, execLdF, execLdRegs, execRnd, execLdB, execStRegs,
    execLdVxK, updateReg, updateRegFlag, update, reduceCtorEq] at h
  case ret =>
    unfold execRet at h
    split at h
    · simp [haltInPlace] at h
    · split at h
      · assumption
      · simp [update] at h
  case jp nnn =>
    unfold execJp at h
    split at h <;> simp [update, haltInPlace] at h
  case call nnn =>
    unfold execCall at h
    split at h
    · simp [haltInPlace] at h
    · split at h
      · assumption
      · simp [update] at h
  case ldVxK x => split at h <;> simp at h

/-! ### The commands -/

/-- The timer of one tick, as a number: it stops at 0 (R230). -/
@[simp] theorem countDown_toNat (t : Byte) : (countDown t).toNat = t.toNat - 1 := by
  unfold countDown
  split
  · simp [*]
  · rename_i h
    have h1 := t.isLt
    have h2 : t.toNat ≠ 0 := fun e => h (BitVec.eq_of_toNat_eq (by simpa using e))
    rw [BitVec.toNat_sub]
    simp only [BitVec.ofNat_eq_ofNat, BitVec.toNat_ofNat]
    omega

/-- `TIMER_TICK` changes the current slot and the pending bit only. -/
theorem timerTick_cases (s : State) :
    timerTick s = { s.editCur s.cur.tick with stepPending := false } ∧ (s.paused = false ∨ s.stepPending = true) ∨
    timerTick s = { s with stepPending := false } ∧ s.paused = true ∧ s.stepPending = false := by
  unfold timerTick
  split
  · exact .inl ⟨rfl, ‹_›⟩
  · rename_i h
    simp only [not_or, Bool.not_eq_false, Bool.not_eq_true] at h
    exact .inr ⟨rfl, h⟩

/-- `STEP_BACK` moves `current` one slot back, or does nothing (R248). -/
theorem stepBack_cases (s : State) :
    (stepBack s = { s with current := ringPrev s.current } ∧ s.paused = true ∧ s.dist < min s.totalCycles 999) ∨
    (stepBack s = s ∧ ¬(s.paused = true ∧ s.dist < min s.totalCycles 999)) := by
  unfold stepBack
  split
  · exact .inl ⟨rfl, ‹_›⟩
  · exact .inr ⟨rfl, ‹_›⟩

/-- One step back along the ring is one more step from the head. -/
theorem dist_ringPrev {s : State} (h : s.dist < 999) : ({ s with current := ringPrev s.current } : State).dist = s.dist + 1 := by
  have h1 := s.head.isLt
  have h2 := s.current.isLt
  simp only [State.dist, ringPrev] at *
  omega

/-- One replay step is one step nearer to the head (R243, R244). -/
theorem dist_ringNext {s : State} (h : s.current ≠ s.head) :
    ({ s with current := ringNext s.current } : State).dist + 1 = s.dist := by
  have h0 : s.current.val ≠ s.head.val := fun e => h (Fin.ext e)
  have h1 := s.head.isLt
  have h2 := s.current.isLt
  simp only [State.dist, ringNext] at *
  omega

/-! ### The word placed for the next fetch (log 11) -/

theorem fetchPc_lt (s : State) : (fetchPc s).toNat < 4095 := by
  unfold fetchPc; split
  · assumption
  · decide

@[simp] theorem cur_placeFetchWord (s : State) (w : Word) :
    (placeFetchWord s w).cur = (s.slot s.head).jump (fetchPc s) := by
  simp [State.cur, State.slot, placeFetchWord, histRead_histWrite]

@[simp] theorem fetchWord_placeFetchWord (s : State) (w : Word) : fetchWord (placeFetchWord s w) = w := by
  rw [fetchWord, cur_placeFetchWord, MachineState.jump_pc]
  exact memReadWord_memWriteBytes s.mem _ w (fetchPc_lt s)

end Sys2Proof.Machine
end

