-- ==== Sys2Proof/Laws/Invariant.lean ====
section
/-! SUPPORT. What carries the invariant of spec 10_state.md R45 from one state to another: states that agree on the
fields it reads, and what an instruction does to the bounds on the current Machine State. -/

namespace Sys2Proof.Machine

@[simp] theorem zextAddr_toNat (nnn : BitVec 12) : (zextAddr nnn).toNat = nnn.toNat := by
  have := nnn.isLt
  rw [zextAddr, BitVec.toNat_setWidth]
  exact Nat.mod_eq_of_lt (by omega)

/-- Two states with one history have the same slots. -/
theorem State.slot_congr {s t : State} (h : t.hist = s.hist) (i : Fin 1000) : t.slot i = s.slot i := by
  simp only [State.slot, h]

/-- The invariant reads only these fields, and the ring distance. -/
theorem State.Inv.congr {s t : State} (hi : s.Inv) (hm : t.mem = s.mem) (hp : t.pristine = s.pristine)
    (hh : t.hist = s.hist) (hd : t.head = s.head) (hw : t.waiting = s.waiting) (hk : t.keyLatch = s.keyLatch)
    (hb : t.dist ≤ min t.totalCycles 999) : t.Inv where
  memWf := by rw [hm]; exact hi.memWf
  pristineWf := by rw [hp]; exact hi.pristineWf
  histWf := by rw [hh]; exact hi.histWf
  slotsOk i := by rw [State.slot_congr hh]; exact hi.slotsOk i
  distBound := hb
  latchWaits := by rw [hk, hw]; exact hi.latchWaits
  waitWord := by rw [WaitsAtKeyWord, hw, hm, hd, State.slot_congr hh]; exact hi.waitWord

/-- A Machine State with the stack of a good one is good if its `pc` is. -/
theorem MachineState.Ok.of_pc {m m' : MachineState} (hsp : m'.sp = m.sp) (hst : m'.stack = m.stack)
    (hpc : m'.pc.toNat ≤ 0x10FE) (h : m.Ok) : m'.Ok := by
  refine ⟨by rw [hsp]; exact h.1, hpc, fun i hi => ?_⟩
  rw [MachineState.stackAt_congr hst]
  exact h.2.2 i (by rw [← hsp]; exact hi)

/-- An instruction fetched inside memory keeps the bounds of R22, R25 and R139 on the current Machine State (R45). -/
theorem exec_keeps_ok {i : Instr} {s : State} (hf : s.cur.pc.toNat < 4096) (ho : s.cur.Ok) {t : State} (h : exec i s = .next t) : t.cur.Ok := by
  have two : (s.cur.pc + 2).toNat ≤ 0x10FE := by rw [BitVec.toNat_add]; simp; omega
  have four : ∀ c, (s.cur.skipIf c).pc.toNat ≤ 0x10FE := by
    intro c; cases c <;> simp [MachineState.skipIf, BitVec.toNat_add] <;> omega
  cases i <;> simp only [exec, execCls, execSeImm, execSneImm, execSeReg, execSneReg, execLdImm, execAddImm, execLdReg,
    execOrReg, execAndReg, execXorReg, execAddReg, execSub, execShr, execSubn, execShl, execLdI, execJpV0, execDrw, execSkp,
    execSknp, execLdVxDt, execLdDtVx, execLdStVx, execAddI, execLdF, execLdRegs, execRnd, execLdB, execStRegs, execRet,
    execJp, execCall, execLdVxK, updateReg, updateRegFlag] at h <;> (repeat' split at h) <;>
    simp only [update_eq_next, haltInPlace_eq_next, reduceCtorEq, Host.Outcome.next.injEq] at h <;> subst h
  case ret.isTrue => exact ho
  case ret.isFalse.isFalse h0 h1 =>
    rw [State.cur_commit]
    have hsp : s.cur.sp.toNat ≠ 0 := fun e => h0 (BitVec.eq_of_toNat_eq e)
    have h16 := ho.1
    have hs : (s.cur.sp - 1).toNat = s.cur.sp.toNat - 1 := by rw [BitVec.toNat_sub]; simp; omega
    have hd : Config.stackDepth = 16 := rfl
    refine ⟨?_, ?_, ?_⟩
    · show (s.cur.sp - 1).toNat ≤ _; omega
    · show (s.cur.stackAt (s.cur.sp.toNat - 1)).toNat ≤ _
      have := ho.2.2 ⟨s.cur.sp.toNat - 1, by omega⟩ (by show s.cur.sp.toNat - 1 < _; omega)
      simp only at this; omega
    · intro i hi
      exact ho.2.2 i (by have : i.val < (s.cur.sp - 1).toNat := hi; omega)
  case jp.isTrue => exact ho
  case jp.isFalse nnn _ =>
    rw [State.cur_commit]; exact MachineState.Ok.of_pc (by simp) (by simp) (by simp [zextAddr_toNat]; omega) ho
  case call.isTrue => exact ho
  case call.isFalse.isFalse nnn h0 h1 =>
    rw [State.cur_commit]
    have hd : Config.stackDepth = 16 := rfl
    have hs : (s.cur.sp + 1).toNat = s.cur.sp.toNat + 1 := by rw [BitVec.toNat_add]; simp; omega
    refine ⟨?_, ?_, ?_⟩
    · show (s.cur.sp + 1).toNat ≤ _; omega
    · show (zextAddr nnn).toNat ≤ _; rw [zextAddr_toNat]; omega
    · intro i hi
      have hi : i.val < (s.cur.sp + 1).toNat := hi
      rw [show ∀ a b, ((s.cur.push a).jump b).stackAt i.val = (s.cur.push a).stackAt i.val from fun _ _ => rfl, MachineState.stackAt_push _ _ _ (by omega)]
      split
      · rw [BitVec.toNat_add]; simp; omega
      · exact ho.2.2 i (by omega)
  case jpV0 nnn =>
    rw [State.cur_commit]; refine MachineState.Ok.of_pc (by simp) (by simp) ?_ ho
    have := (s.cur.reg 0).isLt; have := nnn.isLt
    simp [BitVec.toNat_add, zextAddr_toNat, zextByte]; omega
  case h_1 => exact ho
  case seImm => rw [State.cur_commit]; exact MachineState.Ok.of_pc (m := s.cur) rfl rfl (four _) ho
  case sneImm => rw [State.cur_commit]; exact MachineState.Ok.of_pc (m := s.cur) rfl rfl (four _) ho
  case seReg => rw [State.cur_commit]; exact MachineState.Ok.of_pc (m := s.cur) rfl rfl (four _) ho
  case sneReg => rw [State.cur_commit]; exact MachineState.Ok.of_pc (m := s.cur) rfl rfl (four _) ho
  case skp => rw [State.cur_commit]; exact MachineState.Ok.of_pc (m := s.cur) rfl rfl (four _) ho
  case sknp => rw [State.cur_commit]; exact MachineState.Ok.of_pc (m := s.cur) rfl rfl (four _) ho
  all_goals
    rw [State.cur_commit]
    refine MachineState.Ok.of_pc (m := s.cur) (by simp) (by simp) ?_ ho
    rw [MachineState.advance_pc]
    simpa using two

end Sys2Proof.Machine
end

