-- ==== Sys2Proof/Laws/PerInstr.lean ====
section
/-! SUPPORT. The per-instruction family RoundTrip: the word of every instruction decodes to it, with every operand at
every value its bits admit (spec 30_encoding.md R83, R84, R86). -/

namespace Sys2Proof.Laws

/-! ### The fields of the encoded formats -/

section Fields

variable (op : Nat) (x y : Reg) (n : Fin 16) (kk : Byte) (nnn : BitVec 12)

theorem encodeXKK_toNat (h : op < 16) : (encodeXKK op x kk).toNat = op * 4096 + x.val * 256 + kk.toNat := by
  have := kk.isLt
  simp only [encodeXKK, BitVec.toNat_ofNat]; omega

theorem encodeXYN_toNat (h : op < 16) : (encodeXYN op x y n).toNat = op * 4096 + x.val * 256 + y.val * 16 + n.val := by
  simp only [encodeXYN, BitVec.toNat_ofNat]; omega

theorem encodeNNN_toNat (h : op < 16) : (encodeNNN op nnn).toNat = op * 4096 + nnn.toNat := by
  have := nnn.isLt
  simp only [encodeNNN, BitVec.toNat_ofNat]; omega

theorem encodeXKK_fields (h : op < 16) : fieldOp (encodeXKK op x kk) = op ∧ fieldX (encodeXKK op x kk) = x ∧
    fieldKK (encodeXKK op x kk) = kk := by
  have := kk.isLt
  refine ⟨?_, Fin.ext ?_, BitVec.eq_of_toNat_eq ?_⟩ <;>
    simp only [fieldOp, fieldX, fieldKK, encodeXKK_toNat op x kk h, BitVec.toNat_ofNat] <;> omega

theorem encodeXYN_fields (h : op < 16) : fieldOp (encodeXYN op x y n) = op ∧ fieldX (encodeXYN op x y n) = x ∧
    fieldY (encodeXYN op x y n) = y ∧ fieldN (encodeXYN op x y n) = n := by
  refine ⟨?_, Fin.ext ?_, Fin.ext ?_, Fin.ext ?_⟩ <;>
    simp only [fieldOp, fieldX, fieldY, fieldN, encodeXYN_toNat op x y n h] <;> omega

theorem encodeNNN_fields (h : op < 16) : fieldOp (encodeNNN op nnn) = op ∧ fieldNNN (encodeNNN op nnn) = nnn := by
  have := nnn.isLt
  refine ⟨?_, BitVec.eq_of_toNat_eq ?_⟩ <;>
    simp only [fieldOp, fieldNNN, encodeNNN_toNat op nnn h, BitVec.toNat_ofNat] <;> omega

theorem ne_zero_of_fieldOp {w : Word} (h : fieldOp w = op) (h0 : op ≠ 0) : w ≠ 0 := by
  rintro rfl; exact h0 (by simpa [fieldOp] using h.symm)

end Fields

/-- The family's statement, of an instruction as syntax. -/
def RoundTrip.Statement (i : Instr) : Prop := decodeWord (encode i) = .ok i

theorem RoundTrip.cls : RoundTrip.Statement (.cls) := rfl

theorem RoundTrip.ret : RoundTrip.Statement (.ret) := rfl

theorem RoundTrip.jp (nnn : BitVec 12) : RoundTrip.Statement (.jp nnn) := by
  obtain ⟨h1, h2⟩ := encodeNNN_fields 0x1 nnn (by decide)
  rw [RoundTrip.Statement, encode, decodeWord, if_neg (ne_zero_of_fieldOp 0x1 h1 (by decide)), h1]
  simp only [h2]

theorem RoundTrip.call (nnn : BitVec 12) : RoundTrip.Statement (.call nnn) := by
  obtain ⟨h1, h2⟩ := encodeNNN_fields 0x2 nnn (by decide)
  rw [RoundTrip.Statement, encode, decodeWord, if_neg (ne_zero_of_fieldOp 0x2 h1 (by decide)), h1]
  simp only [h2]

theorem RoundTrip.seImm (x : Reg) (kk : Byte) : RoundTrip.Statement (.seImm x kk) := by
  obtain ⟨h1, h2, h3⟩ := encodeXKK_fields 0x3 x kk (by decide)
  rw [RoundTrip.Statement, encode, decodeWord, if_neg (ne_zero_of_fieldOp 0x3 h1 (by decide)), h1]
  simp only [h2, h3]

theorem RoundTrip.sneImm (x : Reg) (kk : Byte) : RoundTrip.Statement (.sneImm x kk) := by
  obtain ⟨h1, h2, h3⟩ := encodeXKK_fields 0x4 x kk (by decide)
  rw [RoundTrip.Statement, encode, decodeWord, if_neg (ne_zero_of_fieldOp 0x4 h1 (by decide)), h1]
  simp only [h2, h3]

theorem RoundTrip.seReg (x : Reg) (y : Reg) : RoundTrip.Statement (.seReg x y) := by
  obtain ⟨h1, h2, h3, h4⟩ := encodeXYN_fields 0x5 x y 0x0 (by decide)
  rw [RoundTrip.Statement, encode, decodeWord, if_neg (ne_zero_of_fieldOp 0x5 h1 (by decide)), h1]
  simp only [h2, h3, h4, Fin.isValue, Fin.coe_ofNat_eq_mod, Nat.zero_mod, if_true]

theorem RoundTrip.ldImm (x : Reg) (kk : Byte) : RoundTrip.Statement (.ldImm x kk) := by
  obtain ⟨h1, h2, h3⟩ := encodeXKK_fields 0x6 x kk (by decide)
  rw [RoundTrip.Statement, encode, decodeWord, if_neg (ne_zero_of_fieldOp 0x6 h1 (by decide)), h1]
  simp only [h2, h3]

theorem RoundTrip.addImm (x : Reg) (kk : Byte) : RoundTrip.Statement (.addImm x kk) := by
  obtain ⟨h1, h2, h3⟩ := encodeXKK_fields 0x7 x kk (by decide)
  rw [RoundTrip.Statement, encode, decodeWord, if_neg (ne_zero_of_fieldOp 0x7 h1 (by decide)), h1]
  simp only [h2, h3]

theorem RoundTrip.ldReg (x : Reg) (y : Reg) : RoundTrip.Statement (.ldReg x y) := by
  obtain ⟨h1, h2, h3, h4⟩ := encodeXYN_fields 0x8 x y 0x0 (by decide)
  rw [RoundTrip.Statement, encode, decodeWord, if_neg (ne_zero_of_fieldOp 0x8 h1 (by decide)), h1]
  simp only [decodeGroup8, h2, h3, h4]
  rfl

theorem RoundTrip.orReg (x : Reg) (y : Reg) : RoundTrip.Statement (.orReg x y) := by
  obtain ⟨h1, h2, h3, h4⟩ := encodeXYN_fields 0x8 x y 0x1 (by decide)
  rw [RoundTrip.Statement, encode, decodeWord, if_neg (ne_zero_of_fieldOp 0x8 h1 (by decide)), h1]
  simp only [decodeGroup8, h2, h3, h4]
  rfl

theorem RoundTrip.andReg (x : Reg) (y : Reg) : RoundTrip.Statement (.andReg x y) := by
  obtain ⟨h1, h2, h3, h4⟩ := encodeXYN_fields 0x8 x y 0x2 (by decide)
  rw [RoundTrip.Statement, encode, decodeWord, if_neg (ne_zero_of_fieldOp 0x8 h1 (by decide)), h1]
  simp only [decodeGroup8, h2, h3, h4]
  rfl

theorem RoundTrip.xorReg (x : Reg) (y : Reg) : RoundTrip.Statement (.xorReg x y) := by
  obtain ⟨h1, h2, h3, h4⟩ := encodeXYN_fields 0x8 x y 0x3 (by decide)
  rw [RoundTrip.Statement, encode, decodeWord, if_neg (ne_zero_of_fieldOp 0x8 h1 (by decide)), h1]
  simp only [decodeGroup8, h2, h3, h4]
  rfl

theorem RoundTrip.addReg (x : Reg) (y : Reg) : RoundTrip.Statement (.addReg x y) := by
  obtain ⟨h1, h2, h3, h4⟩ := encodeXYN_fields 0x8 x y 0x4 (by decide)
  rw [RoundTrip.Statement, encode, decodeWord, if_neg (ne_zero_of_fieldOp 0x8 h1 (by decide)), h1]
  simp only [decodeGroup8, h2, h3, h4]
  rfl

theorem RoundTrip.sub (x : Reg) (y : Reg) : RoundTrip.Statement (.sub x y) := by
  obtain ⟨h1, h2, h3, h4⟩ := encodeXYN_fields 0x8 x y 0x5 (by decide)
  rw [RoundTrip.Statement, encode, decodeWord, if_neg (ne_zero_of_fieldOp 0x8 h1 (by decide)), h1]
  simp only [decodeGroup8, h2, h3, h4]
  rfl

theorem RoundTrip.shr (x : Reg) (y : Reg) : RoundTrip.Statement (.shr x y) := by
  obtain ⟨h1, h2, h3, h4⟩ := encodeXYN_fields 0x8 x y 0x6 (by decide)
  rw [RoundTrip.Statement, encode, decodeWord, if_neg (ne_zero_of_fieldOp 0x8 h1 (by decide)), h1]
  simp only [decodeGroup8, h2, h3, h4]
  rfl

theorem RoundTrip.subn (x : Reg) (y : Reg) : RoundTrip.Statement (.subn x y) := by
  obtain ⟨h1, h2, h3, h4⟩ := encodeXYN_fields 0x8 x y 0x7 (by decide)
  rw [RoundTrip.Statement, encode, decodeWord, if_neg (ne_zero_of_fieldOp 0x8 h1 (by decide)), h1]
  simp only [decodeGroup8, h2, h3, h4]
  rfl

theorem RoundTrip.shl (x : Reg) (y : Reg) : RoundTrip.Statement (.shl x y) := by
  obtain ⟨h1, h2, h3, h4⟩ := encodeXYN_fields 0x8 x y 0xE (by decide)
  rw [RoundTrip.Statement, encode, decodeWord, if_neg (ne_zero_of_fieldOp 0x8 h1 (by decide)), h1]
  simp only [decodeGroup8, h2, h3, h4]
  rfl

theorem RoundTrip.sneReg (x : Reg) (y : Reg) : RoundTrip.Statement (.sneReg x y) := by
  obtain ⟨h1, h2, h3, h4⟩ := encodeXYN_fields 0x9 x y 0x0 (by decide)
  rw [RoundTrip.Statement, encode, decodeWord, if_neg (ne_zero_of_fieldOp 0x9 h1 (by decide)), h1]
  simp only [h2, h3, h4, Fin.isValue, Fin.coe_ofNat_eq_mod, Nat.zero_mod, if_true]

theorem RoundTrip.ldI (nnn : BitVec 12) : RoundTrip.Statement (.ldI nnn) := by
  obtain ⟨h1, h2⟩ := encodeNNN_fields 0xA nnn (by decide)
  rw [RoundTrip.Statement, encode, decodeWord, if_neg (ne_zero_of_fieldOp 0xA h1 (by decide)), h1]
  simp only [h2]

theorem RoundTrip.jpV0 (nnn : BitVec 12) : RoundTrip.Statement (.jpV0 nnn) := by
  obtain ⟨h1, h2⟩ := encodeNNN_fields 0xB nnn (by decide)
  rw [RoundTrip.Statement, encode, decodeWord, if_neg (ne_zero_of_fieldOp 0xB h1 (by decide)), h1]
  simp only [h2]

theorem RoundTrip.rnd (x : Reg) (kk : Byte) : RoundTrip.Statement (.rnd x kk) := by
  obtain ⟨h1, h2, h3⟩ := encodeXKK_fields 0xC x kk (by decide)
  rw [RoundTrip.Statement, encode, decodeWord, if_neg (ne_zero_of_fieldOp 0xC h1 (by decide)), h1]
  simp only [h2, h3]

theorem RoundTrip.drw (x : Reg) (y : Reg) (n : Fin 16) : RoundTrip.Statement (.drw x y n) := by
  obtain ⟨h1, h2, h3, h4⟩ := encodeXYN_fields 0xD x y n (by decide)
  rw [RoundTrip.Statement, encode, decodeWord, if_neg (ne_zero_of_fieldOp 0xD h1 (by decide)), h1]
  simp only [h2, h3, h4]

theorem RoundTrip.skp (x : Reg) : RoundTrip.Statement (.skp x) := by
  obtain ⟨h1, h2, h3⟩ := encodeXKK_fields 0xE x 0x9E (by decide)
  rw [RoundTrip.Statement, encode, decodeWord, if_neg (ne_zero_of_fieldOp 0xE h1 (by decide)), h1]
  simp only [decodeGroupE, h2, h3]
  rfl

theorem RoundTrip.sknp (x : Reg) : RoundTrip.Statement (.sknp x) := by
  obtain ⟨h1, h2, h3⟩ := encodeXKK_fields 0xE x 0xA1 (by decide)
  rw [RoundTrip.Statement, encode, decodeWord, if_neg (ne_zero_of_fieldOp 0xE h1 (by decide)), h1]
  simp only [decodeGroupE, h2, h3]
  rfl

theorem RoundTrip.ldVxDt (x : Reg) : RoundTrip.Statement (.ldVxDt x) := by
  obtain ⟨h1, h2, h3⟩ := encodeXKK_fields 0xF x 0x07 (by decide)
  rw [RoundTrip.Statement, encode, decodeWord, if_neg (ne_zero_of_fieldOp 0xF h1 (by decide)), h1]
  simp only [decodeGroupF, h2, h3]
  rfl

theorem RoundTrip.ldVxK (x : Reg) : RoundTrip.Statement (.ldVxK x) := by
  obtain ⟨h1, h2, h3⟩ := encodeXKK_fields 0xF x 0x0A (by decide)
  rw [RoundTrip.Statement, encode, decodeWord, if_neg (ne_zero_of_fieldOp 0xF h1 (by decide)), h1]
  simp only [decodeGroupF, h2, h3]
  rfl

theorem RoundTrip.ldDtVx (x : Reg) : RoundTrip.Statement (.ldDtVx x) := by
  obtain ⟨h1, h2, h3⟩ := encodeXKK_fields 0xF x 0x15 (by decide)
  rw [RoundTrip.Statement, encode, decodeWord, if_neg (ne_zero_of_fieldOp 0xF h1 (by decide)), h1]
  simp only [decodeGroupF, h2, h3]
  rfl

theorem RoundTrip.ldStVx (x : Reg) : RoundTrip.Statement (.ldStVx x) := by
  obtain ⟨h1, h2, h3⟩ := encodeXKK_fields 0xF x 0x18 (by decide)
  rw [RoundTrip.Statement, encode, decodeWord, if_neg (ne_zero_of_fieldOp 0xF h1 (by decide)), h1]
  simp only [decodeGroupF, h2, h3]
  rfl

theorem RoundTrip.addI (x : Reg) : RoundTrip.Statement (.addI x) := by
  obtain ⟨h1, h2, h3⟩ := encodeXKK_fields 0xF x 0x1E (by decide)
  rw [RoundTrip.Statement, encode, decodeWord, if_neg (ne_zero_of_fieldOp 0xF h1 (by decide)), h1]
  simp only [decodeGroupF, h2, h3]
  rfl

theorem RoundTrip.ldF (x : Reg) : RoundTrip.Statement (.ldF x) := by
  obtain ⟨h1, h2, h3⟩ := encodeXKK_fields 0xF x 0x29 (by decide)
  rw [RoundTrip.Statement, encode, decodeWord, if_neg (ne_zero_of_fieldOp 0xF h1 (by decide)), h1]
  simp only [decodeGroupF, h2, h3]
  rfl

theorem RoundTrip.ldB (x : Reg) : RoundTrip.Statement (.ldB x) := by
  obtain ⟨h1, h2, h3⟩ := encodeXKK_fields 0xF x 0x33 (by decide)
  rw [RoundTrip.Statement, encode, decodeWord, if_neg (ne_zero_of_fieldOp 0xF h1 (by decide)), h1]
  simp only [decodeGroupF, h2, h3]
  rfl

theorem RoundTrip.stRegs (x : Reg) : RoundTrip.Statement (.stRegs x) := by
  obtain ⟨h1, h2, h3⟩ := encodeXKK_fields 0xF x 0x55 (by decide)
  rw [RoundTrip.Statement, encode, decodeWord, if_neg (ne_zero_of_fieldOp 0xF h1 (by decide)), h1]
  simp only [decodeGroupF, h2, h3]
  rfl

theorem RoundTrip.ldRegs (x : Reg) : RoundTrip.Statement (.ldRegs x) := by
  obtain ⟨h1, h2, h3⟩ := encodeXKK_fields 0xF x 0x65 (by decide)
  rw [RoundTrip.Statement, encode, decodeWord, if_neg (ne_zero_of_fieldOp 0xF h1 (by decide)), h1]
  simp only [decodeGroupF, h2, h3]
  rfl

end Sys2Proof.Laws
end

