-- ==== Sys2Proof/Tests/Slice0.lean ====
section
/-! SUPPORT. The model's own tests. Expected values come from the spec: words from 30_encoding.md R84, results from
95_test_vectors.md (the vector's id stands before each test). The last part shows, for every statement with hypotheses,
a state and operands that meet them together. -/

namespace Sys2Proof.Tests

open Sys2Proof.Machine Sys2Proof.Claims

/-! ### Well-formedness: ill-formed terms are refused (R84, R88, R275) -/

theorem test_wf_refuses_zero_word : wellFormedWord 0x0000 = false := by decide
theorem test_wf_refuses_sys_word : wellFormedWord 0x0123 = false := by decide
theorem test_wf_refuses_group_5 : wellFormedWord 0x5121 = false := by decide
theorem test_wf_refuses_group_8 : wellFormedWord 0x8128 = false := by decide
theorem test_wf_refuses_group_9 : wellFormedWord 0x9121 = false := by decide
theorem test_wf_refuses_group_E : wellFormedWord 0xE19F = false := by decide
theorem test_wf_refuses_group_F : wellFormedWord 0xF30B = false := by decide
theorem test_wf_accepts_cls_with_ignored_nibble : wellFormedWord 0x0AE0 = true := by decide
theorem test_wf_program_bound (bs : List Byte) (h : bs.length = 3585) : wellFormedProgram bs = false := by
  simp [wellFormedProgram, h]
theorem test_decode_refuses_short_bytes : decodeBytes [0x60] = .error .truncated := by rfl

/-! ### Decoding: one written-out word per instruction (R84) -/

theorem test_decode_cls : decodeWord 0b0000101011100000 = .ok .cls := by rfl
theorem test_decode_ret : decodeWord 0b0000001111101110 = .ok .ret := by rfl
theorem test_decode_jp : decodeWord 0b0001111111111110 = .ok (.jp 0xFFE) := by rfl
theorem test_decode_call : decodeWord 0b0010000100100011 = .ok (.call 0x123) := by rfl
theorem test_decode_seImm : decodeWord 0b0011111100000001 = .ok (.seImm 15 0x01) := by rfl
theorem test_decode_sneImm : decodeWord 0b0100001100101010 = .ok (.sneImm 3 0x2A) := by rfl
theorem test_decode_seReg : decodeWord 0b0101000100100000 = .ok (.seReg 1 2) := by rfl
theorem test_decode_ldImm : decodeWord 0b0110101000101111 = .ok (.ldImm 10 0x2F) := by rfl
theorem test_decode_addImm : decodeWord 0b0111000111111111 = .ok (.addImm 1 0xFF) := by rfl
theorem test_decode_ldReg : decodeWord 0b1000000100100000 = .ok (.ldReg 1 2) := by rfl
theorem test_decode_orReg : decodeWord 0b1000000100100001 = .ok (.orReg 1 2) := by rfl
theorem test_decode_andReg : decodeWord 0b1000000100100010 = .ok (.andReg 1 2) := by rfl
theorem test_decode_xorReg : decodeWord 0b1000000100100011 = .ok (.xorReg 1 2) := by rfl
theorem test_decode_addReg : decodeWord 0b1000000100100100 = .ok (.addReg 1 2) := by rfl
theorem test_decode_sub : decodeWord 0b1000000100100101 = .ok (.sub 1 2) := by rfl
theorem test_decode_shr : decodeWord 0b1000000100100110 = .ok (.shr 1 2) := by rfl
theorem test_decode_subn : decodeWord 0b1000000100100111 = .ok (.subn 1 2) := by rfl
theorem test_decode_shl : decodeWord 0b1000000100101110 = .ok (.shl 1 2) := by rfl
theorem test_decode_sneReg : decodeWord 0b1001000100100000 = .ok (.sneReg 1 2) := by rfl
theorem test_decode_ldI : decodeWord 0b1010111111111110 = .ok (.ldI 0xFFE) := by rfl
theorem test_decode_jpV0 : decodeWord 0b1011000111110000 = .ok (.jpV0 0x1F0) := by rfl
theorem test_decode_rnd : decodeWord 0b1100001111111110 = .ok (.rnd 3 0xFE) := by rfl
theorem test_decode_drw : decodeWord 0b1101000100100101 = .ok (.drw 1 2 5) := by rfl
theorem test_decode_skp : decodeWord 0b1110000110011110 = .ok (.skp 1) := by rfl
theorem test_decode_sknp : decodeWord 0b1110000110100001 = .ok (.sknp 1) := by rfl
theorem test_decode_ldVxDt : decodeWord 0b1111001000000111 = .ok (.ldVxDt 2) := by rfl
theorem test_decode_ldVxK : decodeWord 0b1111001100001010 = .ok (.ldVxK 3) := by rfl
theorem test_decode_ldDtVx : decodeWord 0b1111001000010101 = .ok (.ldDtVx 2) := by rfl
theorem test_decode_ldStVx : decodeWord 0b1111001000011000 = .ok (.ldStVx 2) := by rfl
theorem test_decode_addI : decodeWord 0b1111001000011110 = .ok (.addI 2) := by rfl
theorem test_decode_ldF : decodeWord 0b1111010000101001 = .ok (.ldF 4) := by rfl
theorem test_decode_ldB : decodeWord 0b1111010100110011 = .ok (.ldB 5) := by rfl
theorem test_decode_stRegs : decodeWord 0b1111001001010101 = .ok (.stRegs 2) := by rfl
theorem test_decode_ldRegs : decodeWord 0b1111001001100101 = .ok (.ldRegs 2) := by rfl

/-! ### One step on a small machine (the conventions of 95_test_vectors.md) -/

/-- The start state of the vectors, with a given Machine State. -/
def start (m : MachineState) : State := { State.reset with hist := [(0, m)], straps := ⟨false, false, .flag⟩ }

/-- The same with other straps. -/
def startWith (m : MachineState) (q : Straps) : State := { start m with straps := q }

/-- The start state with cells of memory. -/
def startMem (m : MachineState) (mem : Memory) : State := { start m with mem := mem }

/-- A Machine State with some registers set. -/
def regs (l : List (Reg × Byte)) : MachineState := l.foldl (fun m p => m.setReg p.1 p.2) MachineState.fresh

/-- The state after one step on a word; the start state itself where the step does not answer one. -/
def after (w : Nat) (s : State) : State :=
  match step (s.withFetchWord 16 w) with
  | .next t => t
  | _ => s

/-- Where a sprite or a store stands in the vectors. -/
def at300 (l : List (Reg × Byte)) : MachineState := (regs l).withIr 0x300

/-- F1, F2 -/
theorem test_ret : (after 0x00EE (start (regs []))).totalCycles = 0 ∧ (after 0x00EE (start ({ regs [] with sp := 2 } : MachineState))).cur.sp = 1 := by decide
/-- F3 -/
theorem test_ret_pops : (after 0x03EE (start ((regs []).push 0x204))).cur.pc = 0x204 := by decide
/-- F4, F5 -/
theorem test_jp : (after 0x1200 (start (regs []))).totalCycles = 0 ∧ (after 0x1202 (start (regs []))).cur.pc = 0x202 := by decide
/-- F9, F10 -/
theorem test_call_at_the_depth : (after 0x2300 (start { regs [] with sp := 15 })).cur.stackAt 15 = 0x202 ∧ (after 0x2300 (start { regs [] with sp := 16 })).totalCycles = 0 := by decide
/-- F11 -/
theorem test_call_at_the_top : (after 0x2300 (start { regs [] with pc := 0x0FFE })).cur.stackAt 0 = 0x1000 := by decide
/-- F12, F13 -/
theorem test_seImm : (after 0x332A (start (regs [(3, 0x2A)]))).cur.pc = 0x204 ∧ (after 0x3F01 (start (regs [(15, 1)]))).cur.pc = 0x204 := by decide
/-- F14, F15 -/
theorem test_sneImm : (after 0x432A (start (regs [(3, 0x2A)]))).cur.pc = 0x202 ∧ (after 0x432A (start (regs []))).cur.pc = 0x204 := by decide
/-- F16, F17 -/
theorem test_seReg : (after 0x5440 (start (regs [(4, 9)]))).cur.pc = 0x204 ∧ (after 0x5120 (start (regs [(1, 1), (2, 2)]))).cur.pc = 0x202 := by decide
/-- F19, F20 -/
theorem test_sneReg : (after 0x9440 (start (regs [(4, 9)]))).cur.pc = 0x202 ∧ (after 0x9120 (start (regs [(1, 1), (2, 2)]))).cur.pc = 0x204 := by decide
/-- F21, F22 -/
theorem test_jpV0 : (after 0xBFFF (start (regs [(0, 0xFF)]))).cur.pc = 0x10FE ∧ (after 0xB1F0 (start (regs [(0, 0x10)]))).totalCycles = 1 := by decide
/-- F23 -/
theorem test_skip_past_the_top : (after 0x3000 (start { regs [] with pc := 0x0FFE })).cur.pc = 0x1002 := by decide
/-- F18, F28, A26, K15, K20: an Invalid word changes nothing -/
theorem test_invalid_words : [0x5121, 0x0123, 0x8128, 0xE19F, 0xF30B].all (fun w => (after w (start (regs []))).totalCycles == 0) := by decide
/-- F24 -/
theorem test_fetch_outside : fetchWord (start { regs [] with pc := 0x1000 }) = 0 := by decide
/-- F25 -/
theorem test_fetch_last_byte : fetchWord (startMem { regs [] with pc := 0x0FFF } [(0xFFF, 0x60)]) = 0x6000 := by decide
/-- F26 -/
theorem test_ldImm : (after 0x6A2F (start { regs [] with pc := 0x201 })).cur.reg 10 = 0x2F := by decide
/-- A2 -/
theorem test_addImm : (after 0x7101 (start (regs [(1, 0xFF), (15, 7)]))).cur.reg 1 = 0 ∧ (after 0x7101 (start (regs [(1, 0xFF), (15, 7)]))).cur.reg 15 = 7 := by decide
/-- R152 -/
theorem test_ldReg : (after 0x8120 (start (regs [(1, 4), (2, 6)]))).cur.reg 1 = 6 := by decide
/-- A5 -/
theorem test_orReg : (after 0x8121 (start (regs [(1, 0xF0), (2, 0x0F), (15, 9)]))).cur.reg 1 = 0xFF ∧ (after 0x8121 (start (regs [(1, 0xF0), (2, 0x0F), (15, 9)]))).cur.reg 15 = 9 := by decide
/-- A6 -/
theorem test_andReg : (after 0x8122 (start (regs [(1, 0xF3), (2, 0x3F)]))).cur.reg 1 = 0x33 := by decide
/-- A7 -/
theorem test_xorReg : (after 0x8113 (start (regs [(1, 0x5A)]))).cur.reg 1 = 0 := by decide
/-- A8, A9 -/
theorem test_addReg : (after 0x8124 (start (regs [(1, 255), (2, 1)]))).cur.reg 15 = 1 ∧ (after 0x8124 (start (regs [(1, 255), (15, 1)]))).cur.reg 15 = 0 := by decide
/-- V2 -/
theorem test_addReg_vf : (after 0x8F14 (start (regs [(15, 0x10), (1, 2)]))).cur.reg 15 = 0 ∧ (after 0x8F14 (startWith (regs [(15, 0x10), (1, 2)]) ⟨false, false, .result⟩)).cur.reg 15 = 0x12 := by decide
/-- A13, A14 -/
theorem test_sub : (after 0x8125 (start (regs [(1, 7), (2, 7), (15, 1)]))).cur.reg 15 = 0 ∧ (after 0x8125 (start (regs [(2, 1)]))).cur.reg 1 = 0xFF := by decide
/-- V3 -/
theorem test_sub_vf : (after 0x8F15 (start (regs [(15, 5), (1, 3)]))).cur.reg 15 = 1 ∧ (after 0x8F15 (startWith (regs [(15, 5), (1, 3)]) ⟨false, false, .result⟩)).cur.reg 15 = 2 := by decide
/-- A19, A20 -/
theorem test_shr : (after 0x8126 (start (regs [(1, 0x80), (2, 1)]))).cur.reg 1 = 0x40 ∧ (after 0x8126 (startWith (regs [(1, 0x80), (2, 1)]) ⟨true, false, .flag⟩)).cur.reg 1 = 0 := by decide
/-- A25 -/
theorem test_shr_reads_old_vf : (after 0x81F6 (startWith (regs [(15, 5)]) ⟨true, false, .flag⟩)).cur.reg 1 = 2 := by decide
/-- A17, A18 -/
theorem test_subn : (after 0x8127 (start (regs [(1, 7), (2, 7), (15, 1)]))).cur.reg 15 = 0 ∧ (after 0x8127 (start (regs [(1, 10), (2, 3)]))).cur.reg 1 = 0xF9 := by decide
/-- A22, A23 -/
theorem test_shl : (after 0x812E (start (regs [(1, 0x7F), (2, 0x80)]))).cur.reg 1 = 0xFE ∧ (after 0x812E (startWith (regs [(1, 0x7F), (2, 0x80)]) ⟨true, false, .flag⟩)).cur.reg 15 = 1 := by decide
/-- V6 -/
theorem test_shl_vf : (after 0x8F0E (start (regs [(15, 0xC0)]))).cur.reg 15 = 1 ∧ (after 0x8F0E (startWith (regs [(15, 0xC0)]) ⟨false, false, .result⟩)).cur.reg 15 = 0x80 := by decide
/-- A28: the mask 0 hides the draw, whatever it is. -/
theorem test_rnd : (after 0xC300 (start (regs [(3, 9)]))).cur.reg 3 = 0 := by
  show Config.randomByte 0 &&& 0 = 0
  exact BitVec.and_zero
/-- R163 -/
theorem test_rnd_advances : (after 0xC3FF (start (regs []))).cur.pc = 0x202 ∧ (after 0xC3FF (start (regs []))).draws = 1 := by decide
/-- M1 -/
theorem test_ldI : (after 0xAFFF (start (regs []))).cur.ir = 0x0FFF := by decide
/-- M2, M4 -/
theorem test_addI : (after 0xF21E (start ((regs [(2, 1)]).withIr 0x0FFF))).cur.ir = 0x1000 ∧ (after 0xF21E (start ((regs [(2, 0xFF)]).withIr 0xFF01))).cur.ir = 0 := by decide
/-- M6, M7 -/
theorem test_ldF : (after 0xF429 (start (regs [(4, 0x0F)]))).cur.ir = 0x4B ∧ (after 0xF429 (start (regs [(4, 0x1A)]))).cur.ir = 0x32 := by decide
/-- M9 -/
theorem test_ldB : [0x300, 0x301, 0x302].map (memRead (after 0xF533 (start (at300 [(5, 255)]))).mem) = [2, 5, 5] := by decide
/-- M12 -/
theorem test_ldB_does_not_wrap : (after 0xF533 (start ((regs [(5, 7)]).withIr 0xFFFF))).mem = [(0x200, 0xF5), (0x201, 0x33)] := by decide
/-- M15 -/
theorem test_stRegs : [0xFFE, 0xFFF, 0].map (memRead (after 0xF355 (start ((regs [(0, 1), (1, 2), (2, 3), (3, 4)]).withIr 0xFFE))).mem) = [1, 2, 0xF0] := by decide
/-- M14, M19 -/
theorem test_stRegs_quirk : (after 0xFF55 (startWith (at300 []) ⟨false, true, .flag⟩)).cur.ir = 0x310 ∧ (after 0xF155 (startWith ((regs []).withIr 0xFFFF) ⟨false, true, .flag⟩)).cur.ir = 1 := by decide
/-- M16 -/
theorem test_ldRegs : [0, 1, 2].map (after 0xF265 (start (regs []))).cur.reg = [0xF0, 0x90, 0x90] := by decide
/-- M17 -/
theorem test_ldRegs_past_the_top : [0, 1, 2, 3].map (after 0xF365 (startMem ((regs [(2, 0x55), (3, 0x55)]).withIr 0xFFE) [(0xFFE, 0xAA), (0xFFF, 0xBB)])).cur.reg = [0xAA, 0xBB, 0, 0] := by decide
/-- D1 -/
theorem test_cls : displayPixel (after 0x00E0 (start ((regs []).withFb (Vector.replicate 32 (BitVec.allOnes 64))))).cur.fb 63 31 = false := by decide
/-- D20 -/
theorem test_drw_clips_and_collides : displayRow (after 0xD121 (startMem ((at300 [(1, 60)]).withFb (Vector.replicate 32 1)) [(0x300, 0xF1)])).cur.fb 0 = 0xE ∧ (after 0xD121 (startMem ((at300 [(1, 60)]).withFb (Vector.replicate 32 1)) [(0x300, 0xF1)])).cur.reg 15 = 1 := by decide
/-- D12, D18 -/
theorem test_drw_start : displayPixel (after 0xD121 (startMem (at300 [(1, 70), (2, 10)]) [(0x300, 0x80)])).cur.fb 0 10 = true ∧ displayPixel (after 0xDFF1 (startMem (at300 [(15, 3)]) [(0x300, 0x80)])).cur.fb 3 3 = true := by decide
/-- K2 -/
theorem test_ldVxDt : (after 0xF207 (start { regs [] with dt := 0xFF })).cur.reg 2 = 0xFF := by decide
/-- K4 -/
theorem test_ldDtVx : (after 0xF215 (start (regs [(2, 0xFF)]))).cur.dt = 0xFF := by decide
/-- K5 -/
theorem test_ldStVx : (after 0xF218 (start (regs [(2, 0xFF)]))).cur.st = 0xFF := by decide
/-- K6, K9, K11 -/
theorem test_skp : (after 0xE19E { start (regs [(1, 5)]) with keyNow := some 5 }).cur.pc = 0x204 ∧ (after 0xE19E (start (regs []))).cur.pc = 0x202 ∧ (after 0xE19E { start (regs [(1, 0x15)]) with keyNow := some 5 }).cur.pc = 0x202 := by decide
/-- K12, K14 -/
theorem test_sknp : (after 0xE1A1 { start (regs [(1, 5)]) with keyNow := some 5 }).cur.pc = 0x202 ∧ (after 0xE1A1 (start (regs [(1, 0xFF)]))).cur.pc = 0x204 := by decide
/-- K19 -/
theorem test_ldVxK_waits : (after 0xF30A { start (regs []) with keyNow := some 5 }).waiting = true ∧ (after 0xF30A { start (regs []) with keyNow := some 5 }).totalCycles = 0 := by decide
/-- K18 -/
theorem test_ldVxK_consumes : (after 0xF30A { start (regs []) with waiting := true, keyLatch := some 0xF }).cur.reg 3 = 0xF ∧ (after 0xF30A { start (regs []) with waiting := true, keyLatch := some 0xF }).waiting = false := by decide

/-! ### One command -/

/-- The state after one command. -/
def afterCommand (c : Command) (s : State) : State :=
  match step { s with commands := [c] } with
  | .next t => t
  | _ => s

/-- T2, T3 -/
theorem test_timerTick : (afterCommand .timerTick (start { regs [] with dt := 1, st := 1 })).cur.dt = 0 ∧ (afterCommand .timerTick (start (regs []))).cur.dt = 0 := by decide
/-- T4, T5 -/
theorem test_timerTick_paused : (afterCommand .timerTick { start { regs [] with dt := 9 } with paused := true }).cur.dt = 9 ∧ (afterCommand .timerTick { start { regs [] with dt := 9 } with paused := true, stepPending := true }).cur.dt = 8 := by decide
/-- H2 -/
theorem test_stepBack : (afterCommand .stepBack { after 0x00E0 (start (regs [])) with paused := true }).cur.pc = 0x200 ∧ (afterCommand .stepBack (after 0x00E0 (start (regs [])))).cur.pc = 0x202 := by decide
/-- H8 -/
theorem test_reset : memRead (afterCommand .reset { after 0xF055 (start ((regs [(0, 0x12)]).withIr 0x200)) with pristine := [(0x200, 0x60)], paused := true }).mem 0x200 = 0x60 ∧ (afterCommand .reset (after 0x6512 (start (regs [])))).cur = MachineState.fresh := by decide
/-- H1 -/
theorem test_loadProgram : fetchWord (afterCommand (.loadProgram [0x00, 0xE0, 0x12, 0x02]) (start (regs []))) = 0x00E0 := by decide
/-- H7 -/
theorem test_keyPressed : (afterCommand (.keyPressed 3) (start (regs []))).keyLatch = none ∧ (afterCommand (.keyPressed 9) { start (regs []) with waiting := true, keyLatch := some 3 }).keyLatch = some 9 := by decide
/-- P4, commands 9, 10, 13 -/
theorem test_stepFwd_replays : (afterCommand (.stepFwd none) { after 0x00E0 (start (regs [])) with current := 0, paused := true }).cur.pc = 0x202 ∧ (afterCommand (.execTick none) { after 0x00E0 (start (regs [])) with current := 0, paused := true }).cur.pc = 0x200 := by decide

/-! ### Witnesses: every statement's hypotheses can be met together, each clause at the edge of its range -/

/-- A machine about to run a word. -/
def about (w : Nat) (m : MachineState) : State := (start m).withFetchWord 16 w

theorem witness_StepRunsDecodedInstruction :
    (about 0x6A2F (regs [])).live ∧ decodeWord (fetchWord (about 0x6A2F (regs []))) = .ok (.ldImm 10 0x2F) ∧
    (about 0x6A2F (regs [])).paused = false ∧ (about 0x6A2F (regs [])).commands = [] := ⟨rfl, rfl, rfl, rfl⟩
theorem witness_StepRunsDecodedInstruction_execTick :
    (withCommands (about 0x6A2F (regs [])) [.execTick none]).live ∧
    decodeWord (fetchWord (withCommands (about 0x6A2F (regs [])) [.execTick none])) = .ok (.ldImm 10 0x2F) ∧
    (withCommands (about 0x6A2F (regs [])) [.execTick none]).paused = false := ⟨rfl, rfl, rfl⟩
theorem witness_StepRunsDecodedInstruction_stepFwd :
    (togglePause (withCommands (about 0x6A2F (regs [])) [.stepFwd none])).live ∧
    decodeWord (fetchWord (togglePause (withCommands (about 0x6A2F (regs [])) [.stepFwd none]))) = .ok (.ldImm 10 0x2F) ∧
    (togglePause (withCommands (about 0x6A2F (regs [])) [.stepFwd none])).paused = true ∧
    ∃ t, exec (.ldImm 10 0x2F) (togglePause (about 0x6A2F (regs []))) = .next t := ⟨rfl, rfl, rfl, _, rfl⟩
theorem witness_StepRunsPlacedWord : decodeTableWord 16 0xFF65 = some (.ldRegs 15) ∧ 0xFF65 < 65536 := ⟨rfl, by decide⟩
theorem witness_FetchIsBigEndianPair :
    (start { regs [] with pc := 4094 }).cur.pc.toNat < 4095 ∧ (start { regs [] with pc := 4095 }).cur.pc.toNat = 4095 ∧
    4096 ≤ (start { regs [] with pc := 4096 }).cur.pc.toNat := by decide
theorem witness_LiveStepCommitsOrChangesNothing :
    (about 0x6A2F (regs [])).live ∧ (∃ t, liveStep (about 0x6A2F (regs [])) = .next t ∧ t.totalCycles = 1) ∧
    ∃ t, liveStep (about 0xF30A (regs [])) = .next t ∧ t.waiting = true := ⟨rfl, ⟨_, rfl, rfl⟩, _, rfl, rfl⟩
theorem witness_NoUpdateInExactlySixCases :
    (about 0x2300 { regs [] with sp := 16 }).live ∧ (about 0x2300 { regs [] with sp := 16 }).cur.sp.toNat ≤ 16 := by decide
theorem witness_HaltedMachineStaysHalted :
    (about 0x1200 (regs [])).live ∧ (about 0x1200 (regs [])).halted = true ∧ (about 0x1200 (regs [])).commands = [] := by decide
theorem witness_DecoderAgreesWithOpcodeTable : opcodeTable.length = 34 ∧ wellFormedWord 0x8128 = false := by decide
theorem witness_EncodeOfDecodedWord : decodeWord 0x0FFF = .error (.invalidWord 0x0FFF) ∧ decodeWord 0x0FEE = .ok .ret := ⟨rfl, rfl⟩
theorem witness_WritesRegAndFlag :
    (1 : Reg) ≠ 15 ∧ (start (regs [])).straps.vfWritePriority = .flag ∧
    (startWith (regs []) ⟨false, false, .result⟩).straps.vfWritePriority = .result := by decide
theorem witness_ShiftsSetTheBitShiftedOut :
    (0x80 : Byte) = (if (start (regs [(1, 0x80), (2, 1)])).straps.quirkShiftVy = true then 1 else
      (start (regs [(1, 0x80), (2, 1)])).cur.reg 1) ∧
    (1 : Byte) = if (startWith (regs [(1, 0x80), (2, 1)]) ⟨true, false, .flag⟩).straps.quirkShiftVy = true then
      (startWith (regs [(1, 0x80), (2, 1)]) ⟨true, false, .flag⟩).cur.reg 2 else 0 := by decide
theorem witness_KeySkipsMovePc_pressed : ∃ pressed : Prop, pressed ∧ (pressed ↔ ∃ k : Key,
    (({ start (regs [(1, 5)]) with keyNow := some 5 } : State)).keyNow = some k ∧
    k.toNat = (({ start (regs [(1, 5)]) with keyNow := some 5 } : State).cur.reg 1).toNat) :=
  ⟨True, trivial, fun _ => ⟨5, rfl, by decide⟩, fun _ => trivial⟩
theorem witness_KeySkipsMovePc_none : ∃ pressed : Prop, ¬pressed ∧ (pressed ↔ ∃ k : Key,
    (start (regs [])).keyNow = some k ∧ k.toNat = ((start (regs [])).cur.reg 1).toNat) :=
  ⟨False, not_false, False.elim, fun ⟨_, h, _⟩ => by cases h⟩
theorem witness_JumpSetsPcOrHalts :
    (0x200 : BitVec 12).toNat = (start (regs [])).cur.pc.toNat ∧ (0x202 : BitVec 12).toNat ≠ (start (regs [])).cur.pc.toNat := by decide
theorem witness_CallPushesReturnAddress :
    (start { regs [] with sp := 16 }).cur.sp.toNat = 16 ∧ (start { regs [] with sp := 15 }).cur.sp.toNat < 16 := by decide
theorem witness_ReturnPopsIntoPc :
    (start (regs [])).cur.sp.toNat = 0 ∧ 0 < (start { regs [] with sp := 1 }).cur.sp.toNat ∧
    0 < (start { regs [] with sp := 16 }).cur.sp.toNat ∧ (start { regs [] with sp := 16 }).cur.sp.toNat ≤ 16 := by decide
theorem witness_ReturnUndoesCall : (start { regs [] with sp := 15 }).cur.sp.toNat < 16 := by decide
theorem witness_ReturnAndCallStopAboveDepth : 16 < (start { regs [] with sp := 17 }).cur.sp.toNat := by decide
theorem witness_BcdStoresThreeDigits :
    (start ((regs []).withIr 4095)).cur.ir.toNat < 4096 ∧ (start ((regs []).withIr 4094)).cur.ir.toNat + 1 < 4096 ∧
    (start ((regs []).withIr 4093)).cur.ir.toNat + 2 < 4096 := by decide
theorem witness_BlockMoves :
    (15 : Reg) ≤ 15 ∧ (start ((regs []).withIr 4080)).cur.ir.toNat + 15 < 4096 ∧
    4096 ≤ (start ((regs []).withIr 4081)).cur.ir.toNat + 15 ∧ (14 : Reg) < 15 ∧
    (start (regs [])).straps.quirkIndexInc = false ∧ (startWith (regs []) ⟨false, true, .flag⟩).straps.quirkIndexInc = true := by decide
theorem witness_BlockLoadReturnsBlockStore : (start ((regs []).withIr 4080)).cur.ir.toNat + (15 : Reg).val < 4096 := by decide
theorem witness_DrawXorsSpriteAndReportsCollision :
    spriteBit (startMem (at300 [(1, 63), (2, 31)]) [(0x300, 0x80)]) 1 2 1 63 31 ∧
    ¬spriteBit (startMem (at300 [(1, 63), (2, 31)]) [(0x300, 0x80)]) 1 2 1 0 0 ∧
    (after 0xD121 (startMem ((at300 [(1, 60)]).withFb (Vector.replicate 32 1)) [(0x300, 0xF1)])).cur.reg 15 = 1 := by
  unfold spriteBit; decide
theorem witness_DrawRefinesTheRulesLoops : ∃ out : (Nat → Nat → Bool) × Bool,
    out = drawLoop (start (at300 [])).mem (start (at300 [])).cur.ir.toNat (startAt 64 ((start (at300 [])).cur.reg 1))
      (startAt 32 ((start (at300 [])).cur.reg 2)) (15 : Fin 16).val (displayPixel (start (at300 [])).cur.fb) := ⟨_, rfl⟩
theorem witness_DrawTwiceRestoresDisplay :
    (1 : Reg) ≠ 15 ∧ (14 : Reg) ≠ 15 ∧ displayPixel (start (regs [])).cur.fb 2 1 = false ∧
    displayPixel (after 0xD125 (start (regs [(1, 2), (2, 1)]))).cur.fb 2 1 = true := by decide
theorem witness_KeyLoadWaitsOrConsumes :
    (start (regs [])).keyLatch = none ∧ ({ start (regs []) with keyLatch := some 15 } : State).keyLatch = some 15 := ⟨rfl, rfl⟩
theorem witness_KeyWaitEndsWithLastPress :
    (about 0xF30A (regs [])).live ∧ (about 0xF30A (regs [])).paused = false ∧ (about 0xF30A (regs [])).keyLatch = none ∧
    decodeWord (fetchWord (about 0xF30A (regs []))) = .ok (.ldVxK 3) ∧ [(none : Option Key)] ≠ [] := ⟨rfl, rfl, rfl, rfl, by simp⟩
theorem witness_KeyPressIsLatchedOnlyWhileWaiting :
    (withCommands (start (regs [])) [.keyPressed 3]).commands = .keyPressed 3 :: [] ∧
    (withCommands (start (regs [])) [.keyPressed 3]).waiting = false ∧
    (withCommands { start (regs []) with waiting := true } [.keyPressed 3]).waiting = true := ⟨rfl, rfl, rfl⟩
theorem witness_EngineStepIsLiveOrReplay :
    (start (regs [])).current = (start (regs [])).head ∧
    ({ start (regs []) with current := 999 } : State).current ≠ ({ start (regs []) with current := 999 } : State).head := by decide
/-- A Replaying machine, one slot behind head, where the ring wraps. -/
def behind (cs : List Command) : State :=
  withCommands { start (regs []) with head := 0, current := 999, totalCycles := 1000 } cs
theorem witness_TicksReplayWhileReplaying :
    (behind []).current ≠ (behind []).head ∧ (behind []).paused = false ∧ (behind []).commands = [] ∧
    (behind [.execTick none]).current ≠ (behind [.execTick none]).head ∧ (behind [.execTick none]).paused = false ∧
    (behind [.execTick none]).commands = .execTick none :: [] := by decide
theorem witness_TicksReplayWhileReplaying_stepFwd :
    (togglePause (behind [.stepFwd none])).current ≠ (togglePause (behind [.stepFwd none])).head ∧
    (togglePause (behind [.stepFwd none])).paused = true ∧
    (togglePause (behind [.stepFwd none])).commands = .stepFwd none :: [] := by decide
theorem witness_PauseGatesTheTicks :
    (withCommands (start (regs [])) [.togglePause]).commands = .togglePause :: [] ∧
    (togglePause (withCommands (start (regs [])) [.execTick none])).commands = .execTick none :: [] ∧
    (togglePause (withCommands (start (regs [])) [.execTick none])).paused = true ∧
    (withCommands (start (regs [])) [.stepFwd none]).commands = .stepFwd none :: [] ∧
    (withCommands (start (regs [])) [.stepFwd none]).paused = false := ⟨rfl, rfl, rfl, rfl, rfl⟩
theorem witness_TimerTickCountsDownInPlace :
    (withCommands (start (regs [])) [.timerTick]).commands = .timerTick :: [] ∧
    (withCommands (start (regs [])) [.timerTick]).paused = false ∧
    (togglePause (withCommands (start (regs [])) [.timerTick])).paused = true ∧
    (togglePause (withCommands (start (regs [])) [.timerTick])).stepPending = false := ⟨rfl, rfl, rfl, rfl⟩
/-- A paused machine one commit after reset. -/
def oneBack (cs : List Command) : State := togglePause (withCommands (after 0x00E0 (start (regs []))) cs)
theorem witness_StepBackMovesOnlyCurrent :
    (oneBack [.stepBack]).commands = .stepBack :: [] ∧ (oneBack [.stepBack]).paused = true ∧
    ((oneBack [.stepBack]).head.val + 1000 - (oneBack [.stepBack]).current.val) % 1000 < min (oneBack [.stepBack]).totalCycles 999 ∧
    ¬((start (regs [])).paused = true ∧
      ((start (regs [])).head.val + 1000 - (start (regs [])).current.val) % 1000 < min (start (regs [])).totalCycles 999) :=
  ⟨rfl, rfl, by decide, by decide⟩
theorem witness_StepBackMovesOnlyCurrent_at_the_bound :
    (∀ s ∈ [({ oneBack [.stepBack] with current := 0 } : State),
        { oneBack [.stepBack] with head := 500, current := 501, totalCycles := 1500 }],
      s.commands = .stepBack :: [] ∧ s.paused = true ∧
      (s.head.val + 1000 - s.current.val) % 1000 = min s.totalCycles 999) := by decide
theorem witness_StepBackReachesOldestRetained : (oneBack []).live ∧ (oneBack []).paused = true := ⟨rfl, rfl⟩
/-- Two successive states of a run. -/
def run (k : Nat) : State :=
  match k with
  | 0 => about 0x00E0 (regs [])
  | _ => after 0x00E0 (start (regs []))
theorem witness_HistorySymmetry :
    1 ≤ 999 ∧ 1 ≤ 1 ∧ (run 0).live ∧ (run 0).paused = false ∧
    ∀ k, k < 1 → execTick { run k with keyNow := none } = .next (run (k + 1)) ∧ (run (k + 1)).totalCycles = (run k).totalCycles + 1 := by
  refine ⟨by decide, by decide, rfl, rfl, fun k hk => ?_⟩
  obtain rfl : k = 0 := by omega
  exact ⟨rfl, rfl⟩
theorem witness_ResetCommandRestoresFreshMachine :
    (withCommands (start (regs [])) [.reset]).commands = .reset :: [] := rfl
theorem witness_LoadProgramBuildsMemory :
    (withCommands (start (regs [])) [.loadProgram [0x12, 0x00]]).commands = .loadProgram [0x12, 0x00] :: [] ∧
    0x200 + 0 < 4096 ∧ 0x200 + [(0x12 : Byte), 0x00].length ≤ 0x202 := ⟨rfl, by decide, by decide⟩
/-- A machine that waits at `LD V3, K` with a latched key. -/
def keyMachine : State :=
  { State.reset with mem := [(0x200, 0xF3), (0x201, 0x0A)], waiting := true, keyLatch := some 7 }
theorem witness_StepKeepsReachableInvariant : keyMachine.Inv ∧ ∃ t, step keyMachine = .next t := by
  refine ⟨⟨by decide, by decide, by decide, fun i => ?_, by decide, by decide, fun _ => ⟨3, rfl⟩⟩, _, rfl⟩
  have h : keyMachine.slot i = MachineState.fresh := by
    simp only [State.slot, keyMachine, State.reset, histRead, sparseFind]; split <;> rfl
  rw [h]; decide
theorem witness_EveryStepAnswers : ∃ s : State, s.Inv := ⟨keyMachine, witness_StepKeepsReachableInvariant.1⟩
theorem witness_StepKeepsStrapsAndPristine :
    (∃ t, step (start (regs [])) = .next t) ∧ ∀ bytes rest, (start (regs [])).commands ≠ .loadProgram bytes :: rest :=
  ⟨⟨_, rfl⟩, fun _ _ h => by cases h⟩
theorem witness_OnlyTimerLoadsChangeTimers :
    (∃ t, exec (.ldDtVx 1) (start (regs [(1, 9)])) = .next t ∧ t.cur.dt ≠ (start (regs [(1, 9)])).cur.dt) ∧
    ∃ t, exec (.ldStVx 1) (start (regs [(1, 9)])) = .next t ∧ t.cur.st ≠ (start (regs [(1, 9)])).cur.st :=
  ⟨⟨_, rfl, by decide⟩, _, rfl, by decide⟩
theorem witness_OnlyStoresChangeMemory :
    ∃ t, exec (.stRegs 0) (start (at300 [(0, 1)])) = .next t ∧ t.mem ≠ (start (at300 [(0, 1)])).mem := ⟨_, rfl, by decide⟩
theorem witness_OnlyTheirInstructionsMoveStackAndDisplay :
    (∃ t, exec (.call 0x300) (start (regs [])) = .next t ∧ t.cur.sp ≠ (start (regs [])).cur.sp) ∧
    ∃ t, exec (.drw 0 0 1) (start (regs [])) = .next t ∧ displayPixel t.cur.fb 0 0 ≠ displayPixel (start (regs [])).cur.fb 0 0 :=
  ⟨⟨_, rfl, by decide⟩, _, rfl, by decide⟩
theorem witness_OnlyFlagInstructionsClobberVf :
    ∃ t, exec (.sub 1 2) (start (regs [(1, 1)])) = .next t ∧ t.cur.reg 15 ≠ (start (regs [(1, 1)])).cur.reg 15 := ⟨_, rfl, by decide⟩
theorem witness_OnlyKeySkipsSampleTheKey :
    (∀ x, Instr.ldVxK 3 ≠ .skp x ∧ Instr.ldVxK 3 ≠ .sknp x) ∧ ∃ t, exec (.ldVxK 3) (start (regs [])) = .next t :=
  ⟨fun _ => ⟨by simp, by simp⟩, _, rfl⟩
theorem witness_ReplayingExecutesNothing :
    (withCommands { start (regs []) with current := 999 } [.execTick none]).current ≠
      (withCommands { start (regs []) with current := 999 } [.execTick none]).head ∧
    restartsMachine (.execTick none) = false ∧
    ∃ t, step (withCommands { start (regs []) with current := 999 } [.execTick none]) = .next t := ⟨by decide, rfl, _, rfl⟩

end Sys2Proof.Tests
end

/-! ## What a step can do, and what it leaves of the engine -/

namespace Sys2Proof.Machine

/-! ### Inversion lemmas: the cases of a step, a command and a cycle that answer a next state -/

/-- The two ways a step answers (R40, log 4). -/
theorem step_cases {s t : State} (h : step s = .next t) :
    (s.commands = [] ∧ execTick s = .next t) ∨
    ∃ c rest, s.commands = c :: rest ∧ runCommand c { s with commands := rest } = .next t := by
  unfold step at h
  split at h
  · exact .inl ⟨‹_›, h⟩
  · exact .inr ⟨_, _, ‹_›, h⟩

/-- `EXEC_TICK` while paused does nothing (R246). -/
theorem execTick_cases {s t : State} (h : execTick s = .next t) :
    (s.paused = true ∧ t = s) ∨ (s.paused = false ∧ engineStep s = .next t) := by
  unfold execTick at h
  split at h
  · cases h; exact .inl ⟨‹_›, rfl⟩
  · exact .inr ⟨Bool.eq_false_of_not_eq_true ‹_›, h⟩

/-- `STEP_FWD` while not paused does nothing; else it sets the pending bit on top of an engine step (R247, D23). -/
theorem stepFwd_cases {s t : State} (h : stepFwd s = .next t) :
    (s.paused = false ∧ t = s) ∨
    (s.paused = true ∧ ∃ u, engineStep s = .next u ∧ t = { u with stepPending := true }) := by
  unfold stepFwd at h
  split at h
  · unfold withStepPending at h
    split at h <;> cases h
    exact .inr ⟨‹_›, _, ‹_›, rfl⟩
  · cases h; exact .inl ⟨Bool.eq_false_of_not_eq_true ‹_›, rfl⟩

/-- The engine step is the Live step or moves `current` one slot on (R244). -/
theorem engineStep_cases {s t : State} (h : engineStep s = .next t) :
    (s.live ∧ liveStep s = .next t) ∨ (s.current ≠ s.head ∧ t = { s with current := ringNext s.current }) := by
  unfold engineStep at h
  split at h
  · exact .inl ⟨‹_›, h⟩
  · cases h; exact .inr ⟨‹_›, rfl⟩

/-- The Live step halts in place on a word that is no instruction, and else runs the instruction (R112 to R114). -/
theorem liveStep_cases {s t : State} (h : liveStep s = .next t) :
    ((∃ e, decodeWord (fetchWord s) = .error e) ∧ t = s) ∨
    ∃ i, decodeWord (fetchWord s) = .ok i ∧ exec i s = .next t := by
  cases hd : decodeWord (fetchWord s) with
  | error e => rw [liveStep_of_rejects hd] at h; cases h; exact .inl ⟨⟨e, rfl⟩, rfl⟩
  | ok i => exact .inr ⟨i, rfl, liveStep_of_decodes hd ▸ h⟩

/-! ### The fields that no cycle writes -/

/-- Two states agree on the engine bits, the pristine copy, the straps and the inputs: what an instruction may not
touch. -/
structure SameEngine (s t : State) : Prop where
  pristine : t.pristine = s.pristine
  paused : t.paused = s.paused
  stepPending : t.stepPending = s.stepPending
  straps : t.straps = s.straps
  keyNow : t.keyNow = s.keyNow
  commands : t.commands = s.commands

theorem SameEngine.refl (s : State) : SameEngine s s := ⟨rfl, rfl, rfl, rfl, rfl, rfl⟩

/-- Whichever of its outcomes an instruction has, none writes an engine field. -/
theorem exec_sameEngine {i : Instr} {s t : State} (h : exec i s = .next t) : SameEngine s t := by
  obtain rfl | ⟨-, -, rfl⟩ | ⟨m, rfl | ⟨-, bs, rfl⟩ | ⟨-, rfl⟩ | ⟨-, -, rfl⟩⟩ := exec_cases h
  · exact .refl t                         -- a halt in place
  all_goals constructor <;> simp          -- the key wait, and the four kinds of commit

theorem liveStep_sameEngine {s t : State} (h : liveStep s = .next t) : SameEngine s t := by
  obtain ⟨-, rfl⟩ | ⟨i, -, hx⟩ := liveStep_cases h
  · exact .refl t
  · exact exec_sameEngine hx

theorem engineStep_sameEngine {s t : State} (h : engineStep s = .next t) : SameEngine s t := by
  obtain ⟨-, hl⟩ | ⟨-, rfl⟩ := engineStep_cases h
  · exact liveStep_sameEngine hl
  · exact ⟨rfl, rfl, rfl, rfl, rfl, rfl⟩  -- a replay step writes `current` only

theorem execTick_sameEngine {s t : State} (h : execTick s = .next t) : SameEngine s t := by
  obtain ⟨-, rfl⟩ | ⟨-, he⟩ := execTick_cases h
  · exact .refl t
  · exact engineStep_sameEngine he

/-! ### The straps and the pristine copy under the commands -/

theorem stepFwd_straps_pristine {s t : State} (h : stepFwd s = .next t) :
    t.straps = s.straps ∧ t.pristine = s.pristine := by
  obtain ⟨-, rfl⟩ | ⟨-, u, hu, rfl⟩ := stepFwd_cases h
  · exact ⟨rfl, rfl⟩
  · exact ⟨(engineStep_sameEngine hu).straps, (engineStep_sameEngine hu).pristine⟩

@[simp] theorem timerTick_straps (s : State) : (timerTick s).straps = s.straps := by
  obtain ⟨h, -⟩ | ⟨h, -⟩ := timerTick_cases s <;> simp [h]

@[simp] theorem timerTick_pristine (s : State) : (timerTick s).pristine = s.pristine := by
  obtain ⟨h, -⟩ | ⟨h, -⟩ := timerTick_cases s <;> simp [h]

@[simp] theorem togglePause_straps (s : State) : (togglePause s).straps = s.straps := rfl
@[simp] theorem togglePause_pristine (s : State) : (togglePause s).pristine = s.pristine := rfl

@[simp] theorem stepBack_straps (s : State) : (stepBack s).straps = s.straps := by
  obtain ⟨h, -⟩ | ⟨h, -⟩ := stepBack_cases s <;> rw [h]

@[simp] theorem stepBack_pristine (s : State) : (stepBack s).pristine = s.pristine := by
  obtain ⟨h, -⟩ | ⟨h, -⟩ := stepBack_cases s <;> rw [h]

@[simp] theorem keyPressed_straps (k : Key) (s : State) : (keyPressed k s).straps = s.straps := by
  unfold keyPressed; split <;> rfl

@[simp] theorem keyPressed_pristine (k : Key) (s : State) : (keyPressed k s).pristine = s.pristine := by
  unfold keyPressed; split <;> rfl

/-- No command writes the straps, and only `LOAD_PROGRAM` the pristine copy (R10, R54). -/
theorem runCommand_straps_pristine {c : Command} {s t : State} (h : runCommand c s = .next t) :
    t.straps = s.straps ∧ ((∀ bytes, c ≠ .loadProgram bytes) → t.pristine = s.pristine) := by
  cases c with
  | execTick key =>
    have hk := execTick_sameEngine h
    exact ⟨hk.straps, fun _ => hk.pristine⟩
  | stepFwd key =>
    obtain ⟨hs, hp⟩ := stepFwd_straps_pristine h
    exact ⟨hs, fun _ => hp⟩
  | loadProgram bytes => cases h; exact ⟨loadProgram_straps bytes s, fun hc => absurd rfl (hc bytes)⟩
  | timerTick => cases h; simp
  | togglePause => cases h; simp
  | stepBack => cases h; simp
  | reset => cases h; simp
  | keyPressed value => cases h; simp

/-- Settles O51: a step is an `EXEC_TICK`, whose cycle writes no engine field, or one of the driver's commands. -/
theorem stepKeepsStrapsAndPristine : Obligations.StepKeepsStrapsAndPristine := by
  intro s t h
  obtain ⟨-, ht⟩ | ⟨c, rest, hc, hr⟩ := step_cases h
  · exact ⟨(execTick_sameEngine ht).straps, fun _ => (execTick_sameEngine ht).pristine⟩
  · obtain ⟨hs, hp⟩ := runCommand_straps_pristine hr
    exact ⟨hs, fun hl => hp fun bytes e => hl bytes rest (e ▸ hc)⟩

end Sys2Proof.Machine

/-! ## The invariant of reachable states -/

namespace Sys2Proof.Machine

/-! ### The fresh and the ticked Machine State -/

theorem MachineState.fresh_ok : MachineState.fresh.Ok := by decide

/-- A timer tick leaves all that the bounds speak of. -/
theorem MachineState.Ok.tick {m : MachineState} (h : m.Ok) : m.tick.Ok := h

@[simp] theorem State.slot_reset (i : Fin 1000) : State.reset.slot i = MachineState.fresh := by
  simp only [State.slot, State.reset, histRead, sparseFind]
  split <;> rfl

/-! ### What carries the invariant to another state -/

/-- On a Live machine that does not wait, the invariant is the canonical forms and the bounds on the slots. -/
theorem State.Inv.of_live_of_not_waiting {s : State} (hm : Memory.wf s.mem) (hp : Memory.wf s.pristine)
    (hh : History.wf s.hist) (hs : ∀ i : Fin 1000, (s.slot i).Ok) (hl : s.live) (hw : s.waiting = false)
    (hk : s.keyLatch = none) : s.Inv where
  memWf := hm
  pristineWf := hp
  histWf := hh
  slotsOk := hs
  distBound := by simp [State.dist_of_live hl]
  latchWaits h := absurd hk h
  waitWord h := by simp [hw] at h

/-- A commit keeps the invariant if the key wait is over: the word that the new head's `pc` addresses may be any. -/
theorem State.Inv.commit {s : State} {m : MachineState} (hm : Memory.wf s.mem) (hp : Memory.wf s.pristine)
    (hh : History.wf s.hist) (hs : ∀ i : Fin 1000, (s.slot i).Ok) (hw : s.waiting = false) (hk : s.keyLatch = none)
    (ho : (s.commit m).cur.Ok) : (s.commit m).Inv := by
  rw [State.cur_commit] at ho
  refine .of_live_of_not_waiting hm hp (histWrite_wf hh (ringNext s.head).isLt m) (fun i => ?_) rfl hw hk
  rw [State.slot_commit]
  split
  · exact ho
  · exact hs i

/-- The pause and pending bits, the key level and the pending commands are no part of the invariant. -/
theorem State.Inv.withDriverBits {s : State} (hi : s.Inv) (paused stepPending : Bool) (keyNow : Option Key)
    (commands : List Command) :
    ({ s with paused := paused, stepPending := stepPending, keyNow := keyNow, commands := commands } : State).Inv :=
  hi.congr rfl rfl rfl rfl rfl rfl hi.distBound

/-- `current` may stand on any retained slot. -/
theorem State.Inv.withCurrent {s : State} (hi : s.Inv) {c : Fin 1000}
    (hb : ({ s with current := c } : State).dist ≤ min s.totalCycles 999) : ({ s with current := c } : State).Inv :=
  hi.congr rfl rfl rfl rfl rfl rfl hb

/-- An edit of the current slot that leaves its `pc` keeps the invariant. -/
theorem State.Inv.editCur {s : State} {m : MachineState} (hi : s.Inv) (ho : m.Ok) (hpc : m.pc = s.cur.pc) :
    (s.editCur m).Inv where
  memWf := hi.memWf
  pristineWf := hi.pristineWf
  histWf := histWrite_wf hi.histWf s.current.isLt m
  slotsOk i := by
    rw [State.slot_editCur]
    split
    · exact ho
    · exact hi.slotsOk i
  distBound := hi.distBound
  latchWaits := hi.latchWaits
  waitWord := by
    have hhead : ((s.editCur m).slot s.head).pc = (s.slot s.head).pc := by
      rw [State.slot_editCur]
      split
      · next h => rw [hpc, State.cur, h]
      · rfl
    rw [WaitsAtKeyWord, State.editCur_head, hhead]
    exact hi.waitWord

/-! ### A cycle keeps the invariant -/

/-- The two answers of `LD Vx, K` (R206): the wait, or a commit that ends it. -/
theorem exec_ldVxK_cases {x : Reg} {s t : State} (h : exec (.ldVxK x) s = .next t) :
    (s.keyLatch = none ∧ t = s.withKeyWait true none) ∨
    ∃ k, s.keyLatch = some k ∧ t = (s.withKeyWait false none).commit (s.cur.setReg x (zextKey k)).advance := by
  change execLdVxK x s = .next t at h
  unfold execLdVxK at h
  split at h
  · cases h; exact .inl ⟨‹_›, rfl⟩
  · exact .inr ⟨_, ‹_›, update_eq_next.mp h⟩

/-- `LD Vx, K` keeps the invariant: it waits at its own word, or ends the wait. -/
theorem exec_ldVxK_inv {x : Reg} {s t : State} (hi : s.Inv) (hl : s.live) (hd : decodeWord (fetchWord s) = .ok (.ldVxK x))
    (ho : t.cur.Ok) (h : exec (.ldVxK x) s = .next t) : t.Inv := by
  obtain ⟨-, rfl⟩ | ⟨k, -, rfl⟩ := exec_ldVxK_cases h
  · exact {
      memWf := hi.memWf
      pristineWf := hi.pristineWf
      histWf := hi.histWf
      slotsOk := hi.slotsOk
      distBound := hi.distBound
      latchWaits := fun _ => rfl
      waitWord := fun _ => ⟨x, by rw [← hd, fetchWord, State.cur, hl]; rfl⟩ }
  · exact .commit hi.memWf hi.pristineWf hi.histWf hi.slotsOk rfl rfl ho

/-- Only at an `LD Vx, K` does a Live machine wait (R264); elsewhere no key is latched either. -/
theorem State.Inv.not_waiting {s : State} {i : Instr} (hi : s.Inv) (hl : s.live)
    (hd : decodeWord (fetchWord s) = .ok i) (hx : ∀ x, i ≠ .ldVxK x) : s.waiting = false ∧ s.keyLatch = none := by
  have hw : s.waiting = false := by
    by_contra hw
    obtain ⟨x, hx'⟩ := hi.waitWord (Bool.eq_true_of_not_eq_false hw)
    rw [fetchWord, State.cur, hl, hx'] at hd
    exact hx x (Except.ok.inj hd).symm
  exact ⟨hw, by_contra fun hk => by simp [hi.latchWaits hk] at hw⟩

/-- The instruction that a Live machine fetches keeps the invariant. -/
theorem exec_inv {i : Instr} {s t : State} (hi : s.Inv) (hl : s.live) (hd : decodeWord (fetchWord s) = .ok i)
    (h : exec i s = .next t) : t.Inv := by
  have ho : t.cur.Ok := exec_keeps_ok (pc_lt_of_decodes hd) (hi.slotsOk _) h
  by_cases hx : ∃ x, i = .ldVxK x
  · obtain ⟨x, rfl⟩ := hx
    exact exec_ldVxK_inv hi hl hd ho h
  · obtain ⟨hw, hk⟩ := hi.not_waiting hl hd fun x e => hx ⟨x, e⟩
    obtain rfl | ⟨-, hx', -⟩ | ⟨m, rfl | ⟨-, bs, rfl⟩ | ⟨-, rfl⟩ | ⟨hx', -⟩⟩ := exec_cases h
    · exact hi
    · exact absurd hx' hx
    · exact .commit hi.memWf hi.pristineWf hi.histWf hi.slotsOk hw hk ho
    · exact .commit (memWriteBytes_wf hi.memWf _ bs) hi.pristineWf hi.histWf hi.slotsOk hw hk ho
    · exact .commit hi.memWf hi.pristineWf hi.histWf hi.slotsOk hw hk ho
    · exact absurd hx' hx

theorem liveStep_inv {s t : State} (hi : s.Inv) (hl : s.live) (h : liveStep s = .next t) : t.Inv := by
  obtain ⟨-, rfl⟩ | ⟨i, hd, hx⟩ := liveStep_cases h
  · exact hi
  · exact exec_inv hi hl hd hx

theorem engineStep_inv {s t : State} (hi : s.Inv) (h : engineStep s = .next t) : t.Inv := by
  obtain ⟨hl, he⟩ | ⟨hne, rfl⟩ := engineStep_cases h
  · exact liveStep_inv hi hl he
  · have hb := hi.distBound
    have hd := dist_ringNext hne       -- a replay step comes nearer to the head
    exact hi.withCurrent (by omega)

/-! ### Every command keeps the invariant -/

theorem execTick_inv {s t : State} (hi : s.Inv) (h : execTick s = .next t) : t.Inv := by
  obtain ⟨-, rfl⟩ | ⟨-, he⟩ := execTick_cases h
  · exact hi
  · exact engineStep_inv hi he

theorem stepFwd_inv {s t : State} (hi : s.Inv) (h : stepFwd s = .next t) : t.Inv := by
  obtain ⟨-, rfl⟩ | ⟨-, u, hu, rfl⟩ := stepFwd_cases h
  · exact hi
  · exact (engineStep_inv hi hu).withDriverBits _ _ _ _

theorem timerTick_inv {s : State} (hi : s.Inv) : (timerTick s).Inv := by
  have hok : s.cur.Ok := hi.slotsOk s.current
  have he : (s.editCur s.cur.tick).Inv := hi.editCur hok.tick rfl
  obtain ⟨h, -⟩ | ⟨h, -⟩ := timerTick_cases s <;> rw [h]
  · exact he.withDriverBits _ _ _ _
  · exact hi.withDriverBits _ _ _ _

theorem stepBack_inv {s : State} (hi : s.Inv) : (stepBack s).Inv := by
  obtain ⟨h, -, hb⟩ | ⟨h, -⟩ := stepBack_cases s <;> rw [h]
  · have hd := dist_ringPrev (s := s) (by omega)
    exact hi.withCurrent (by omega)
  · exact hi

theorem resetMachine_inv {s : State} (hp : Memory.wf s.pristine) (hh : History.wf s.hist)
    (hs : ∀ i : Fin 1000, (s.slot i).Ok) : (resetMachine s).Inv := by
  refine .of_live_of_not_waiting hp hp (histWrite_wf hh (by decide) _) (fun i => ?_) rfl rfl rfl
  rw [State.slot, resetMachine_hist, State.slot_zero_after_reset]
  split
  · exact MachineState.fresh_ok
  · exact hs i

theorem keyPressed_inv {k : Key} {s : State} (hi : s.Inv) : (keyPressed k s).Inv := by
  unfold keyPressed
  split
  · exact { hi with latchWaits := fun _ => ‹_› }
  · exact hi

theorem runCommand_inv {c : Command} {s t : State} (hi : s.Inv) (h : runCommand c s = .next t) : t.Inv := by
  cases c with
  | execTick key => exact execTick_inv (hi.withDriverBits _ _ _ _) h
  | stepFwd key => exact stepFwd_inv (hi.withDriverBits _ _ _ _) h
  | timerTick => cases h; exact timerTick_inv hi
  | togglePause => cases h; exact hi.withDriverBits _ _ _ _
  | stepBack => cases h; exact stepBack_inv hi
  | reset => cases h; exact resetMachine_inv hi.pristineWf hi.histWf hi.slotsOk
  | keyPressed value => cases h; exact keyPressed_inv hi
  | loadProgram bytes => cases h; exact resetMachine_inv (loadImage_wf bytes) hi.histWf hi.slotsOk

/-- Settles O49: a step is an `EXEC_TICK` or a command of the driver, and each keeps the invariant. -/
theorem stepKeepsReachableInvariant : Obligations.StepKeepsReachableInvariant := by
  intro s t hi h
  obtain ⟨-, ht⟩ | ⟨c, rest, -, hr⟩ := step_cases h
  · exact execTick_inv hi ht
  · exact runCommand_inv (hi.withDriverBits _ _ _ _) hr

/-- Settles O48: power-on is Live, does not wait, lists no memory cell, and every slot reads as the fresh state. -/
theorem resetMeetsInvariant : Obligations.ResetMeetsInvariant :=
  .of_live_of_not_waiting memory_nil_wf memory_nil_wf (by decide)
    (fun i => by rw [State.slot_reset]; exact MachineState.fresh_ok) rfl rfl rfl

end Sys2Proof.Machine

/-! ## What an instruction writes of the current Machine State -/

namespace Sys2Proof.Machine

/-! ### The instructions by what they write -/

/-- The instructions that write a result to `v[x]` and no flag. -/
def LoadsReg (x : Reg) (i : Instr) : Prop :=
  (∃ kk, i = .ldImm x kk ∨ i = .addImm x kk ∨ i = .rnd x kk) ∨
  (∃ y, i = .ldReg x y ∨ i = .orReg x y ∨ i = .andReg x y ∨ i = .xorReg x y) ∨ i = .ldVxDt x ∨ i = .ldVxK x

/-- The arithmetic instructions that write a result to `v[x]` and a flag to `v[15]` (R28). -/
def ReportsFlag (x : Reg) (i : Instr) : Prop :=
  ∃ y, i = .addReg x y ∨ i = .sub x y ∨ i = .shr x y ∨ i = .subn x y ∨ i = .shl x y

/-- `i` may make `m'` of the current Machine State `m`. What any instruction may leave (the same state, or one with
another `pc` or `ir`) is not tied to `i`; every other write is tied to the instructions that make it. -/
inductive MachineState.Becomes (m : MachineState) : Instr → MachineState → Prop
  | same (i : Instr) : Becomes m i m
  | jump (i : Instr) (a : Word) : Becomes m i (m.jump a)
  | index (i : Instr) (a : Word) : Becomes m i (m.withIr a).advance
  | call (nnn : BitVec 12) : Becomes m (.call nnn) ((m.push (m.pc + 2)).jump (zextAddr nnn))
  | ret : Becomes m .ret m.popToPc
  | reg {i : Instr} {x : Reg} (hi : LoadsReg x i) (b : Byte) : Becomes m i (m.setReg x b).advance
  | regFlag {i : Instr} {x : Reg} (hi : ReportsFlag x i) (p : VfPriority) (b : Byte) (f : Bool) :
      Becomes m i (m.writeResultAndFlag p x b f).advance
  | loadRegs (x : Reg) (mem : Memory) (q : Bool) : Becomes m (.ldRegs x) ((m.loadRegs mem x).indexInc q x).advance
  | delay (x : Reg) : Becomes m (.ldDtVx x) { m with dt := m.reg x }.advance
  | sound (x : Reg) : Becomes m (.ldStVx x) { m with st := m.reg x }.advance
  | clear : Becomes m .cls (m.withFb (Vector.replicate 32 0)).advance
  | draw (x y : Reg) (n : Fin 16) (fb : Display) (f : Bool) :
      Becomes m (.drw x y n) ((m.withFb fb).setReg vf (flagByte f)).advance

/-- What an instruction commits is what it makes of the current Machine State. -/
theorem MachineState.Becomes.of_update {i : Instr} {m m' : MachineState} {u t : State} (h : update u m' = .next t)
    (hm : m.Becomes i m') : m.Becomes i t.cur := by
  rw [update_eq_next.mp h, State.cur_commit]; exact hm

/-- What every instruction makes of the current Machine State. -/
theorem exec_becomes {i : Instr} {s t : State} (h : exec i s = .next t) : s.cur.Becomes i t.cur := by
  cases i with
  | cls => exact .of_update h .clear
  | drw x y n => exact .of_update h (.draw x y n _ _)
  | ret =>
    change execRet s = .next t at h
    unfold execRet at h
    split at h
    · cases h; exact .same _
    · split at h
      · cases h
      · exact .of_update h .ret
  | call nnn =>
    change execCall nnn s = .next t at h
    unfold execCall at h
    split at h
    · cases h; exact .same _
    · split at h
      · cases h
      · exact .of_update h (.call nnn)
  | jp nnn =>
    change execJp nnn s = .next t at h
    unfold execJp at h
    split at h
    · cases h; exact .same _
    · exact .of_update h (.jump _ _)
  | jpV0 nnn | seImm x kk | sneImm x kk | seReg x y | sneReg x y | skp x | sknp x => exact .of_update h (.jump _ _)
  | ldImm x kk | addImm x kk | rnd x kk | ldReg x y | orReg x y | andReg x y | xorReg x y | ldVxDt x =>
    exact .of_update h (.reg (by simp [LoadsReg]) _)
  | ldVxK x =>
    obtain ⟨-, rfl⟩ | ⟨k, -, rfl⟩ := exec_ldVxK_cases h
    · exact .same _
    · exact .of_update rfl (.reg (by simp [LoadsReg]) _)
  | addReg x y | sub x y | shr x y | subn x y | shl x y => exact .of_update h (.regFlag (by simp [ReportsFlag]) _ _ _)
  | ldI nnn | addI x | ldF x => exact .of_update h (.index _ _)
  | ldB x => exact .of_update h (.jump _ (s.cur.pc + 2))
  | stRegs x =>
    refine .of_update h ?_
    cases s.straps.quirkIndexInc
    · exact .jump _ (s.cur.pc + 2)
    · exact .index _ _
  | ldRegs x => exact .of_update h (.loadRegs x _ _)
  | ldDtVx x => exact .of_update h (.delay x)
  | ldStVx x => exact .of_update h (.sound x)

/-! ### Who moves the stack pointer, who writes the display, who writes VF -/

/-- Only `CALL` and `RET` move the stack pointer (R25). -/
theorem MachineState.Becomes.sp_cases {i : Instr} {m m' : MachineState} (h : m.Becomes i m') :
    m'.sp = m.sp ∨ ((∃ nnn, i = .call nnn) ∧ m'.sp = m.sp + 1) ∨ (i = .ret ∧ m'.sp = m.sp - 1) := by
  cases h with
  | call nnn => exact .inr (.inl ⟨⟨nnn, rfl⟩, rfl⟩)
  | ret => exact .inr (.inr ⟨rfl, rfl⟩)
  | _ => left; simp

/-- Only `CLS` and `DRW` write the display (R29). -/
theorem MachineState.Becomes.fb_cases {i : Instr} {m m' : MachineState} (h : m.Becomes i m') :
    m'.fb = m.fb ∨ i = .cls ∨ ∃ x y n, i = .drw x y n := by
  cases h with
  | clear => exact .inr (.inl rfl)
  | draw x y n => exact .inr (.inr ⟨x, y, n, rfl⟩)
  | _ => left; simp

/-- VF is written by the instructions that report a flag there, and by those whose destination it is (R28). A block
load reaches `v[15]` only as its last register. -/
theorem MachineState.Becomes.vf_cases {i : Instr} {m m' : MachineState} (h : m.Becomes i m') :
    m'.reg vf = m.reg vf ∨ (∃ x, ReportsFlag x i) ∨ (∃ x y n, i = .drw x y n) ∨ LoadsReg vf i ∨
      i = .ldRegs vf := by
  cases h with
  | reg hi b =>
    rename_i x
    by_cases hx : vf = x
    · subst hx; exact .inr (.inr (.inr (.inl hi)))
    · left; simp [hx]
  | regFlag hi => exact .inr (.inl ⟨_, hi⟩)
  | draw x y n => exact .inr (.inr (.inl ⟨x, y, n, rfl⟩))
  | loadRegs x =>
    by_cases hx : x = vf
    · subst hx; exact .inr (.inr (.inr (.inr rfl)))
    · left
      have hne : x.val ≠ 15 := fun e => hx (Fin.ext e)
      have hlt : ¬ vf.val ≤ x.val := by show ¬ 15 ≤ x.val; omega
      simp only [MachineState.reg_advance, MachineState.reg_indexInc, MachineState.reg_loadRegs, if_neg hlt]
  | _ => exact .inl rfl

/-- Settles O54: what an instruction makes of the current Machine State has the same `sp` and display, or is the work
of one of the four. -/
theorem onlyTheirInstructionsMoveStackAndDisplay : Obligations.OnlyTheirInstructionsMoveStackAndDisplay := by
  intro i s t h
  have hm := exec_becomes h
  refine ⟨fun hsp => hm.sp_cases.resolve_left hsp, fun ⟨px, py, _, _, hp⟩ => hm.fb_cases.resolve_left fun hfb => ?_⟩
  exact hp (by rw [hfb])

/-- Settles O55: by the four ways in which an instruction writes VF. -/
theorem onlyFlagInstructionsClobberVf : Obligations.OnlyFlagInstructionsClobberVf := by
  intro i s t h hvf
  obtain hf | hd | (hk | hr | hk) | hb := (exec_becomes h).vf_cases.resolve_left hvf
  · exact .inl hf
  · exact .inr (.inl hd)
  · exact .inr (.inr (.inl hk))
  · exact .inr (.inr (.inr (.inl hr)))
  · exact .inr (.inr (.inr (.inr (hk.imp_right .inl))))
  · exact .inr (.inr (.inr (.inr (.inr (.inr hb)))))

/-! ### The polled key -/

/-- Settles O56: away from the key skips, no meaning reads the polled key, and a commit keeps its level. -/
theorem onlyKeySkipsSampleTheKey : Obligations.OnlyKeySkipsSampleTheKey := by
  intro i s t key hi h
  have hc : ({ s with keyNow := key } : State).cur = s.cur := rfl
  cases i with
  | skp x => exact absurd rfl (hi x).1
  | sknp x => exact absurd rfl (hi x).2
  | ret | jp nnn | call nnn =>
    simp only [exec, execRet, execJp, execCall, hc] at h ⊢
    split_ifs at h ⊢ <;> cases h <;> rfl
  | ldVxK x => cases hk : s.keyLatch <;> (simp only [exec, execLdVxK, hk] at h ⊢; cases h; rfl)
  | _ => cases h; rfl

/-! ### RET and CALL above the depth -/

/-- Settles O24: neither is `sp` then 0 or 16, where the two halt in place, nor is it within the depth. -/
theorem returnAndCallStopAboveDepth : Obligations.ReturnAndCallStopAboveDepth := by
  intro s nnn h
  have h0 : s.cur.sp ≠ 0 := fun e => by simp [e] at h
  constructor
  · show execRet s = _
    rw [execRet, if_neg h0, if_pos h]
  · show execCall nnn s = _
    rw [execCall, if_neg h.ne', if_pos h]

end Sys2Proof.Machine

/-! ## Power-on -/

namespace Sys2Proof.Machine

@[simp] theorem State.cur_reset : State.reset.cur = MachineState.fresh := State.slot_reset _

@[simp] theorem MachineState.reg_fresh (r : Reg) : MachineState.fresh.reg r = 0 := by
  simp [MachineState.reg, MachineState.fresh]

@[simp] theorem MachineState.stackAt_fresh (i : Nat) : MachineState.fresh.stackAt i = 0 := by
  unfold MachineState.stackAt
  split
  · simp [MachineState.fresh]
  · rfl

@[simp] theorem displayPixel_fresh (px py : Nat) : displayPixel MachineState.fresh.fb px py = false := by
  have hrow : displayRow MachineState.fresh.fb py = 0 := by
    unfold displayRow
    split
    · simp [MachineState.fresh]
    · rfl
  simp [displayPixel, hrow]

/-- The font ends below 0x50 (R52); behind it the power-on image is 0 (R51). -/
theorem powerOnByte_eq (a : Nat) : powerOnByte a = if a < 0x50 then Config.fontRom.getD a 0 else 0 := by
  split
  · rfl
  · have hlen : Config.fontRom.length ≤ a := by rw [show Config.fontRom.length = 0x50 from rfl]; omega
    rw [powerOnByte, List.getD_eq_default _ _ hlen]

/-- With no cell listed, memory reads as the power-on image, inside and outside the 4096 bytes (R51, R53). -/
theorem memRead_nil (a : Nat) : memRead [] a = powerOnByte a := by
  by_cases ha : a < 4096
  · simp [memRead, sparseFind, ha]
  · rw [memRead_outside [] (by omega), powerOnByte_eq, if_neg (by omega)]

/-- At power-on the word at `pc` is the zero word, which halts (R112, R270). -/
theorem State.halted_reset : State.reset.halted = true := rfl

/-- Settles O47: by the reads of the fresh Machine State and of memory with no cell listed. -/
theorem powerOnState : Obligations.PowerOnState := by
  unfold Obligations.PowerOnState
  rw [State.cur_reset]
  exact ⟨rfl, rfl, rfl, rfl, rfl, MachineState.reg_fresh, fun i _ => MachineState.stackAt_fresh i,
    fun px py _ _ => displayPixel_fresh px py, fun i => (memRead_nil i).trans (powerOnByte_eq i), fun _ => rfl,
    rfl, rfl, rfl, rfl, rfl, rfl, rfl, State.halted_reset⟩

end Sys2Proof.Machine

/-! ## Memory: the fetch, and what leaves memory as it is -/

namespace Sys2Proof.Machine

/-! ### The fetch -/

theorem fetchWord_toNat (s : State) :
    (fetchWord s).toNat = (memRead s.mem s.cur.pc.toNat).toNat * 256 + (memRead s.mem (s.cur.pc.toNat + 1)).toNat :=
  wordOfBytes_toNat _ _

/-- Settles O7: the word is the pair of bytes at `pc`, of which those from 4096 on read 0. -/
theorem fetchIsBigEndianPair : Obligations.FetchIsBigEndianPair := by
  refine fun s => ⟨fun _ => fetchWord_toNat s, fun h => ?_, fetchWord_outside⟩
  have hlow : memRead s.mem 4096 = 0 := memRead_outside s.mem le_rfl
  simp [fetchWord_toNat, h, hlow]

/-! ### Which instructions write memory -/

/-- Settles O53: of the outcomes of an instruction only the commit of a store has another memory. -/
theorem onlyStoresChangeMemory : Obligations.OnlyStoresChangeMemory := by
  intro i s t h hmem
  obtain rfl | ⟨-, -, rfl⟩ | ⟨m, rfl | ⟨⟨x, hx⟩, bs, rfl⟩ | ⟨-, rfl⟩ | ⟨-, -, rfl⟩⟩ := exec_cases h
  case inr.inr.inr.inl => exact ⟨hx.imp (⟨x, ·⟩) (⟨x, ·⟩), rfl⟩   -- a store
  all_goals exact absurd rfl hmem

/-! ### Replaying executes nothing -/

/-- From `s` to `t` no instruction ran: memory, the draws, the head, the commit count and the keyboard wait stand, and
at most the current slot was edited (R244, R251). -/
structure ExecutesNothing (s t : State) : Prop where
  mem : t.mem = s.mem
  pristine : t.pristine = s.pristine
  draws : t.draws = s.draws
  totalCycles : t.totalCycles = s.totalCycles
  head : t.head = s.head
  waiting : t.waiting = s.waiting
  slots : ∀ i, i ≠ s.current → t.slot i = s.slot i

/-- Moving `current`, latching a key and writing the driver's bits runs no instruction. -/
theorem ExecutesNothing.withDriverFields (s : State) (current : Fin 1000) (paused : Bool) (keyLatch : Option Key)
    (stepPending : Bool) (keyNow : Option Key) (commands : List Command) :
    ExecutesNothing s { s with current := current, paused := paused, keyLatch := keyLatch, stepPending := stepPending,
                               keyNow := keyNow, commands := commands } :=
  ⟨rfl, rfl, rfl, rfl, rfl, rfl, fun _ _ => rfl⟩

/-- The timer tick edits the current slot in place (R230). -/
theorem timerTick_executesNothing (s : State) : ExecutesNothing s (timerTick s) := by
  obtain ⟨h, -⟩ | ⟨h, -⟩ := timerTick_cases s <;> rw [h]
  · exact ⟨rfl, rfl, rfl, rfl, rfl, rfl, fun i hi => (State.slot_editCur s _ i).trans (if_neg hi)⟩
  · exact .withDriverFields s _ _ _ _ _ _

theorem timerTick_keyLatch (s : State) : (timerTick s).keyLatch = s.keyLatch := by
  obtain ⟨h, -⟩ | ⟨h, -⟩ := timerTick_cases s <;> rw [h]
  rfl

/-- While Replaying, an engine step only moves `current` one slot on (R244). -/
theorem engineStep_of_replaying {s t : State} (hne : s.current ≠ s.head) (h : engineStep s = .next t) :
    t = { s with current := ringNext s.current } := by
  obtain ⟨hl, -⟩ | ⟨-, ht⟩ := engineStep_cases h
  · exact absurd hl hne
  · exact ht

/-- While Replaying, a command that does not restart the machine runs no instruction, and only `KEY_PRESSED` latches a
key. -/
theorem runCommand_of_replaying {c : Command} {s t : State} (hne : s.current ≠ s.head)
    (hc : Claims.restartsMachine c = false) (h : runCommand c s = .next t) :
    ExecutesNothing s t ∧ ((∀ k, c ≠ .keyPressed k) → t.keyLatch = s.keyLatch) := by
  cases c with
  | execTick key =>
    obtain ⟨-, rfl⟩ | ⟨-, he⟩ := execTick_cases h
    · exact ⟨.withDriverFields s _ _ _ _ _ _, fun _ => rfl⟩
    · obtain rfl := engineStep_of_replaying (s := { s with keyNow := key }) hne he
      exact ⟨.withDriverFields s _ _ _ _ _ _, fun _ => rfl⟩
  | stepFwd key =>
    obtain ⟨-, rfl⟩ | ⟨-, u, hu, rfl⟩ := stepFwd_cases h
    · exact ⟨.withDriverFields s _ _ _ _ _ _, fun _ => rfl⟩
    · obtain rfl := engineStep_of_replaying (s := { s with keyNow := key }) hne hu
      exact ⟨.withDriverFields s _ _ _ _ _ _, fun _ => rfl⟩
  | timerTick => cases h; exact ⟨timerTick_executesNothing s, fun _ => timerTick_keyLatch s⟩
  | togglePause => cases h; exact ⟨.withDriverFields s _ _ _ _ _ _, fun _ => rfl⟩
  | stepBack =>
    cases h
    obtain ⟨h, -⟩ | ⟨h, -⟩ := stepBack_cases s <;> rw [h] <;> exact ⟨.withDriverFields s _ _ _ _ _ _, fun _ => rfl⟩
  | keyPressed value =>
    cases h
    refine ⟨?_, fun hk => absurd rfl (hk value)⟩
    unfold keyPressed
    split <;> exact .withDriverFields s _ _ _ _ _ _
  | reset | loadProgram bytes => cases hc

/-- A step takes the oldest pending command (R40). -/
theorem step_of_command {s : State} {c : Command} {rest : List Command} (hc : s.commands = c :: rest) :
    step s = runCommand c { s with commands := rest } := by
  rw [step, hc]

/-- Settles O57: the step runs the pending command, and while Replaying that executes nothing. -/
theorem replayingExecutesNothing : Obligations.ReplayingExecutesNothing := by
  intro s t c rest hne hcommands hc h
  rw [step_of_command hcommands] at h
  obtain ⟨ht, hlatch⟩ := runCommand_of_replaying (s := { s with commands := rest }) hne hc h
  exact ⟨ht.mem, ht.pristine, ht.draws, ht.totalCycles, ht.head, ht.waiting, hlatch, ht.slots⟩

end Sys2Proof.Machine

/-! ## Encoding: the decoder, the encoder and the opcode table -/

namespace Sys2Proof

open Sys2Proof.Machine Sys2Proof.Laws

/-! ### From an instruction to its word and back -/

/-- The word of an instruction decodes to it (R86). -/
theorem decodeWord_encode : ∀ i : Instr, decodeWord (encode i) = .ok i
  | .cls => RoundTrip.cls
  | .ret => RoundTrip.ret
  | .jp nnn => RoundTrip.jp nnn
  | .call nnn => RoundTrip.call nnn
  | .seImm x kk => RoundTrip.seImm x kk
  | .sneImm x kk => RoundTrip.sneImm x kk
  | .seReg x y => RoundTrip.seReg x y
  | .ldImm x kk => RoundTrip.ldImm x kk
  | .addImm x kk => RoundTrip.addImm x kk
  | .ldReg x y => RoundTrip.ldReg x y
  | .orReg x y => RoundTrip.orReg x y
  | .andReg x y => RoundTrip.andReg x y
  | .xorReg x y => RoundTrip.xorReg x y
  | .addReg x y => RoundTrip.addReg x y
  | .sub x y => RoundTrip.sub x y
  | .shr x y => RoundTrip.shr x y
  | .subn x y => RoundTrip.subn x y
  | .shl x y => RoundTrip.shl x y
  | .sneReg x y => RoundTrip.sneReg x y
  | .ldI nnn => RoundTrip.ldI nnn
  | .jpV0 nnn => RoundTrip.jpV0 nnn
  | .rnd x kk => RoundTrip.rnd x kk
  | .drw x y n => RoundTrip.drw x y n
  | .skp x => RoundTrip.skp x
  | .sknp x => RoundTrip.sknp x
  | .ldVxDt x => RoundTrip.ldVxDt x
  | .ldVxK x => RoundTrip.ldVxK x
  | .ldDtVx x => RoundTrip.ldDtVx x
  | .ldStVx x => RoundTrip.ldStVx x
  | .addI x => RoundTrip.addI x
  | .ldF x => RoundTrip.ldF x
  | .ldB x => RoundTrip.ldB x
  | .stRegs x => RoundTrip.stRegs x
  | .ldRegs x => RoundTrip.ldRegs x

/-- The first two bytes are the word that is decoded; the rest is given back (R80). -/
theorem decodeBytes_of_decodeWord {hi lo : Byte} {i : Instr} (h : decodeWord (wordOfBytes hi lo) = .ok i)
    (rest : List Byte) : decodeBytes (hi :: lo :: rest) = .ok (i, rest) := by
  rw [decodeBytes, h]

/-- Settles O1: the two bytes make up the word of the instruction again, and that word decodes to it. -/
theorem decodeOfEncodedBytes : Obligations.DecodeOfEncodedBytes := by
  intro i rest
  apply decodeBytes_of_decodeWord
  rw [wordOfBytes_high_low, decodeWord_encode]

/-! ### From a word to its instruction and back -/

section Formats

variable {w : Word} {op : Nat}

/-- Format NNN has every bit of the word (R81, R82). -/
theorem encodeNNN_of_fields (hop : fieldOp w = op) : encodeNNN op (fieldNNN w) = w := by
  subst hop
  apply BitVec.eq_of_toNat_eq
  simp only [encodeNNN, fieldOp, fieldNNN, BitVec.toNat_ofNat]
  omega

/-- Format XKK has every bit of the word (R81, R82). -/
theorem encodeXKK_of_fields {kk : Byte} (hop : fieldOp w = op) (hkk : (fieldKK w).toNat = kk.toNat) :
    encodeXKK op (fieldX w) kk = w := by
  subst hop
  apply BitVec.eq_of_toNat_eq
  simp only [encodeXKK, fieldOp, fieldX, ← hkk, fieldKK, BitVec.toNat_ofNat]
  omega

/-- Format XYN has every bit of the word (R81, R82). -/
theorem encodeXYN_of_fields {n : Fin 16} (hop : fieldOp w = op) (hn : (fieldN w).val = n.val) :
    encodeXYN op (fieldX w) (fieldY w) n = w := by
  subst hop
  apply BitVec.eq_of_toNat_eq
  simp only [encodeXYN, fieldOp, fieldX, fieldY, ← hn, fieldN, BitVec.toNat_ofNat]
  omega

end Formats

section Inversion

variable {w : Word} {i : Instr}

/-- In group 0 the decoded instruction is encoded with the ignored nibble cleared (R87, log 12). -/
theorem encode_of_decodeGroup0 (hop : fieldOp w = 0) (h : decodeGroup0 w = .ok i) : encode i = w &&& 0xF0FF := by
  have hbyte : w &&& 0xF0FF = BitVec.ofNat 16 (fieldKK w).toNat := by
    refine (and_mask_group_byte w).trans ?_
    rw [show w.toNat / 4096 = 0 from hop, Nat.zero_mul, Nat.zero_add, fieldKK, BitVec.toNat_ofNat]
  unfold decodeGroup0 at h
  split at h <;> cases h
  all_goals
    rw [hbyte, ‹(fieldKK w).toNat = _›]
    rfl

theorem encode_of_decodeGroup8 (hop : fieldOp w = 0x8) (h : decodeGroup8 w = .ok i) : encode i = w := by
  unfold decodeGroup8 at h
  split at h <;> cases h
  all_goals exact encodeXYN_of_fields hop ‹_›

theorem encode_of_decodeGroupE (hop : fieldOp w = 0xE) (h : decodeGroupE w = .ok i) : encode i = w := by
  unfold decodeGroupE at h
  split at h <;> cases h
  all_goals exact encodeXKK_of_fields hop ‹_›

theorem encode_of_decodeGroupF (hop : fieldOp w = 0xF) (h : decodeGroupF w = .ok i) : encode i = w := by
  unfold decodeGroupF at h
  split at h <;> cases h
  all_goals exact encodeXKK_of_fields hop ‹_›

/-- Only in group 0 does an instruction not hold every bit of its word (R81, R87). The arm `h_(g+1)` of the case tree is
group `g`. -/
theorem encode_of_decodeWord (h : decodeWord w = .ok i) : encode i = if fieldOp w = 0 then w &&& 0xF0FF else w := by
  unfold decodeWord at h
  split at h
  · cases h
  · split at h <;> rename_i hop
    case h_1 => rw [if_pos hop]; exact encode_of_decodeGroup0 hop h
    all_goals rw [if_neg (by omega)]
    case h_9 => exact encode_of_decodeGroup8 hop h
    case h_15 => exact encode_of_decodeGroupE hop h
    case h_16 => exact encode_of_decodeGroupF hop h
    case h_6 | h_10 =>
      split at h <;> cases h
      exact encodeXYN_of_fields hop ‹_›
    all_goals cases h
    case h_2 | h_3 | h_11 | h_12 => exact encodeNNN_of_fields hop
    case h_4 | h_5 | h_7 | h_8 | h_13 => exact encodeXKK_of_fields hop rfl
    case h_14 => exact encodeXYN_of_fields hop rfl

end Inversion

/-- Settles O3: the words of group 0 are those below 0x1000. -/
theorem encodeOfDecodedWord : Obligations.EncodeOfDecodedWord := by
  intro w i h
  have hgroup : fieldOp w = 0 ↔ w.toNat < 4096 := by rw [fieldOp, Nat.div_eq_zero_iff_lt (by decide)]
  simpa only [hgroup] using encode_of_decodeWord h

/-! ### The decoder and the opcode table -/

/-- The kind of the instruction the decoder answers, if it answers one (R84). -/
def kindOf : Except Reject Instr → Option String
  | .ok i => some i.kind
  | .error _ => none

theorem kindOf_eq_some_iff {d : Except Reject Instr} {k : String} : kindOf d = some k ↔ ∃ i, d = .ok i ∧ i.kind = k := by
  cases d <;> simp [kindOf]

/-- The kind the decoder gives a word. -/
def wordKind (w : Word) : Option String := kindOf (decodeWord w)

/-- The bits from which the decoder tells the kind in a group (R86): the group digit, and the low byte or the low nibble
in the groups where the digit alone does not settle it. -/
def kindMask : Nat → Word
  | 0x0 | 0xE | 0xF => 0xF0FF#16
  | 0x5 | 0x8 | 0x9 => 0xF00F#16
  | _ => 0xF000#16

/-- The bits of a word from which the decoder tells its kind. -/
def kindBits (w : Word) : Word := w &&& kindMask (fieldOp w)

section KindBits

variable {w : Word} {op : Nat}

theorem kindBits_of_group (hop : fieldOp w = op) (hm : kindMask op = 0xF000#16) :
    kindBits w = BitVec.ofNat 16 (op * 4096) := by
  rw [kindBits, hop, hm, ← hop]; exact and_mask_group w

theorem kindBits_of_nibble (hop : fieldOp w = op) (hm : kindMask op = 0xF00F#16) :
    kindBits w = BitVec.ofNat 16 (op * 4096 + (fieldN w).val) := by
  rw [kindBits, hop, hm, ← hop]; exact and_mask_group_nibble w

theorem kindBits_of_byte (hop : fieldOp w = op) (hm : kindMask op = 0xF0FF#16) :
    kindBits w = BitVec.ofNat 16 (op * 4096 + (fieldKK w).toNat) := by
  rw [kindBits, hop, hm, ← hop, fieldKK, BitVec.toNat_ofNat]; exact and_mask_group_byte w

end KindBits

/-- Each mask keeps the group digit. -/
theorem fieldOp_and_kindMask (w : Word) (op : Nat) : fieldOp (w &&& kindMask op) = fieldOp w := by
  have hw := w.isLt
  unfold kindMask
  split
  case h_1 | h_2 | h_3 => rw [and_mask_group_byte, fieldOp, fieldOp, BitVec.toNat_ofNat]; omega
  case h_4 | h_5 | h_6 => rw [and_mask_group_nibble, fieldOp, fieldOp, BitVec.toNat_ofNat]; omega
  case h_7 => rw [and_mask_group, fieldOp, fieldOp, BitVec.toNat_ofNat]; omega

theorem fieldOp_kindBits (w : Word) : fieldOp (kindBits w) = fieldOp w := fieldOp_and_kindMask w _

theorem fieldN_kindBits {w : Word} (hm : kindMask (fieldOp w) = 0xF00F#16) : fieldN (kindBits w) = fieldN w := by
  apply Fin.ext
  rw [kindBits_of_nibble rfl hm]
  simp only [fieldN, BitVec.toNat_ofNat]
  omega

theorem fieldKK_kindBits {w : Word} (hm : kindMask (fieldOp w) = 0xF0FF#16) : fieldKK (kindBits w) = fieldKK w := by
  apply BitVec.eq_of_toNat_eq
  rw [kindBits_of_byte rfl hm]
  simp only [fieldKK, BitVec.toNat_ofNat]
  omega

/-- The zero test settles no kind of its own: the byte 0 of group 0 is no kind either (R89). -/
theorem wordKind_of_group0 {w : Word} (hop : fieldOp w = 0) : wordKind w = kindOf (decodeGroup0 w) := by
  by_cases h0 : w = 0
  · subst h0; rfl
  · rw [wordKind, decodeWord, if_neg h0]; simp only [hop]

/-- Words of one group are of one kind if they have the same low nibble, or the same low byte, where the decoder looks
at it. The arm `h_(g+1)` of the case tree is group `g`. -/
theorem wordKind_congr {v w : Word} (hop : fieldOp v = fieldOp w)
    (hn : kindMask (fieldOp w) = 0xF00F#16 → fieldN v = fieldN w)
    (hkk : kindMask (fieldOp w) = 0xF0FF#16 → fieldKK v = fieldKK w) : wordKind v = wordKind w := by
  have hlt : fieldOp w < 16 := Nat.div_lt_of_lt_mul w.isLt
  generalize hc : fieldOp w = op at *
  by_cases h0 : op = 0
  · subst h0
    rw [wordKind_of_group0 hop, wordKind_of_group0 hc, decodeGroup0, decodeGroup0, hkk rfl]
    split <;> rfl
  · rw [wordKind, wordKind, decodeWord, decodeWord, if_neg (ne_zero_of_fieldOp op hop h0),
      if_neg (ne_zero_of_fieldOp op hc h0), hop, hc]
    split
    case h_1 => exact absurd rfl h0
    case h_6 | h_10 => simp only [hn rfl]; split <;> rfl
    case h_9 => simp only [decodeGroup8, hn rfl]; split <;> rfl
    case h_15 => simp only [decodeGroupE, hkk rfl]; split <;> rfl
    case h_16 => simp only [decodeGroupF, hkk rfl]; split <;> rfl
    case h_17 => simp only [imp_false] at *; omega
    all_goals rfl

/-- A word is of the kind of its kind bits. -/
theorem wordKind_kindBits (w : Word) : wordKind (kindBits w) = wordKind w :=
  wordKind_congr (fieldOp_kindBits w) fieldN_kindBits fieldKK_kindBits

/-- The kind bits of a word that decodes are the pattern of a row. The arm `h_(g+1)` of the case tree is group `g`. -/
theorem kindBits_mem_of_decodeWord {w : Word} {i : Instr} (h : decodeWord w = .ok i) :
    kindBits w ∈ opcodeTable.map (·.pattern) := by
  unfold decodeWord at h
  split at h
  · cases h
  · split at h <;> rename_i hop
    case h_1 | h_15 | h_16 =>
      rw [kindBits_of_byte hop rfl]
      simp only [decodeGroup0, decodeGroupE, decodeGroupF] at h
      split at h <;> cases h
      all_goals
        rw [‹(fieldKK w).toNat = _›]
        decide
    case h_9 =>
      rw [kindBits_of_nibble hop rfl]
      unfold decodeGroup8 at h
      split at h <;> cases h
      all_goals
        rw [‹(fieldN w).val = _›]
        decide
    case h_6 | h_10 =>
      rw [kindBits_of_nibble hop rfl]
      split at h <;> cases h
      rw [‹(fieldN w).val = _›]
      decide
    case h_17 => cases h
    all_goals
      rw [kindBits_of_group hop rfl]
      decide

/-! ### The rows of the table -/

theorem mask_of_mem_opcodeTable : ∀ r ∈ opcodeTable, r.mask = kindMask (fieldOp r.pattern) := by decide

theorem wordKind_pattern : ∀ r ∈ opcodeTable, wordKind r.pattern = some r.kind := by decide

theorem pattern_eq_of_kind_eq : ∀ r ∈ opcodeTable, ∀ r' ∈ opcodeTable, r.kind = r'.kind → r.pattern = r'.pattern := by
  decide

section Rows

variable {r : OpcodeRow} {w : Word}

/-- A row compares the bits from which the decoder tells the kind. -/
theorem covers_iff_kindBits_eq (hr : r ∈ opcodeTable) : r.covers w = true ↔ kindBits w = r.pattern := by
  rw [OpcodeRow.covers, beq_iff_eq, mask_of_mem_opcodeTable r hr]
  constructor <;> intro h
  · have hop : fieldOp r.pattern = fieldOp w := by rw [← h, fieldOp_and_kindMask]
    rwa [hop] at h
  · rw [← h, fieldOp_kindBits, kindBits]

/-- A row covers the words that decode to its kind (R84, R86). -/
theorem covers_iff_wordKind_eq (hr : r ∈ opcodeTable) : r.covers w = true ↔ wordKind w = some r.kind := by
  rw [covers_iff_kindBits_eq hr]
  constructor
  · intro h
    rw [← wordKind_kindBits, h, wordKind_pattern r hr]
  · intro h
    obtain ⟨i, hi, -⟩ := kindOf_eq_some_iff.mp h
    obtain ⟨r', hr', hbits⟩ := List.mem_map.mp (kindBits_mem_of_decodeWord hi)
    rw [← wordKind_kindBits, ← hbits, wordKind_pattern r' hr', Option.some_inj] at h
    rw [← hbits, pattern_eq_of_kind_eq r' hr' r hr h]

/-- The words that some row covers are those that decode (R88). -/
theorem wellFormedWord_iff : wellFormedWord w = true ↔ ∃ i, decodeWord w = .ok i := by
  rw [wellFormedWord, List.any_eq_true]
  constructor
  · rintro ⟨r, hr, h⟩
    obtain ⟨i, hi, -⟩ := kindOf_eq_some_iff.mp ((covers_iff_wordKind_eq hr).mp h)
    exact ⟨i, hi⟩
  · rintro ⟨i, hi⟩
    obtain ⟨r, hr, hbits⟩ := List.mem_map.mp (kindBits_mem_of_decodeWord hi)
    exact ⟨r, hr, (covers_iff_kindBits_eq hr).mpr hbits.symm⟩

end Rows

/-- Settles O2: a row compares the bits from which the decoder tells the kind, and the decoder gives the pattern of
each row the kind of that row. -/
theorem decoderAgreesWithOpcodeTable : Obligations.DecoderAgreesWithOpcodeTable := by
  refine fun w => ⟨fun r hr => (covers_iff_wordKind_eq hr).trans kindOf_eq_some_iff, ?_⟩
  rw [← Bool.not_eq_true, wellFormedWord_iff]
  cases decodeWord w <;> simp

/-! ### Written-out words -/

/-- Settles O4: the Decoder is run on each word. -/
theorem writtenOutWordsDecode : Obligations.WrittenOutWordsDecode :=
  ⟨rfl, rfl, rfl, rfl, rfl, rfl, rfl, rfl, rfl, rfl, rfl⟩

end Sys2Proof

/-! ## The engine cycle: what a step runs, when it commits nothing, and which timers it writes -/

namespace Sys2Proof.Machine

/-! ### What a step runs -/

/-- With no command pending a step is an `EXEC_TICK` (log 4). -/
theorem step_of_no_command {s : State} (hc : s.commands = []) : step s = execTick s := by
  rw [step, hc]

/-- On a Live, unpaused machine `EXEC_TICK` runs the decoded instruction (R114, R246). -/
theorem execTick_of_decodes {s : State} {i : Instr} (hl : s.live) (hp : s.paused = false)
    (hd : decodeWord (fetchWord s) = .ok i) : execTick s = exec i s := by
  rw [execTick_of_live hl hp, liveStep_of_decodes hd]

/-- On a Live, paused machine `STEP_FWD` runs the decoded instruction and sets the step-pending bit (R247, D23). -/
theorem stepFwd_of_decodes {s : State} {i : Instr} (hl : s.live) (hp : s.paused = true)
    (hd : decodeWord (fetchWord s) = .ok i) : stepFwd s = withStepPending (exec i s) := by
  rw [stepFwd, if_pos hp, engineStep, if_pos hl, liveStep_of_decodes hd]

/-- Settles O5: taking the command and setting the key level move neither the ring nor the fetched word. -/
theorem stepRunsDecodedInstruction : Obligations.StepRunsDecodedInstruction := by
  refine fun s i hl hd => ⟨fun hp hc => ?_, fun hp key rest hc => ?_, fun hp key rest hc t ht => ?_⟩
  · rw [step_of_no_command hc, execTick_of_decodes hl hp hd]
  · rw [step_of_command hc]
    exact execTick_of_decodes (s := { s with commands := rest, keyNow := key }) hl hp hd
  · rw [step_of_command hc]
    refine (stepFwd_of_decodes (s := { s with commands := rest, keyNow := key }) hl hp hd).trans ?_
    rw [ht, withStepPending]

/-- A word is decoded from its two bytes, high byte first (R80). -/
theorem decodeWord_of_decodeTableWord {nbits w : Nat} {i : Instr} (h : decodeTableWord nbits w = some i) :
    decodeWord (BitVec.ofNat 16 (w % 2 ^ nbits)) = .ok i := by
  simp only [decodeTableWord, decodeBytes, wordOfBytes_high_low] at h
  cases hd : decodeWord (BitVec.ofNat 16 (w % 2 ^ nbits)) with
  | ok j => rw [hd] at h; cases h; rfl
  | error e => rw [hd] at h; cases h

/-- The word that the next step fetches is the placed one (log 11). -/
@[simp] theorem fetchWord_withFetchWord (s : State) (nbits w : Nat) :
    fetchWord (s.withFetchWord nbits w) = BitVec.ofNat 16 (w % 2 ^ nbits) :=
  fetchWord_placeFetchWord s _

/-- Settles O6: the placing leaves a Live, unpaused machine with no pending command and the placed word at `pc`. -/
theorem stepRunsPlacedWord : Obligations.StepRunsPlacedWord := by
  refine fun s w i h => ⟨?_, fun hw => ?_⟩
  · have hd : decodeWord (fetchWord (s.withFetchWord 16 w)) = .ok i := by
      rw [fetchWord_withFetchWord, decodeWord_of_decodeTableWord h]
    rw [step_of_no_command rfl, execTick_of_decodes rfl rfl hd]
  · rw [fetchWord_withFetchWord, Nat.mod_eq_of_lt (b := 2 ^ 16) hw]

/-! ### The halted machine -/

theorem zextAddr_eq_iff {nnn : BitVec 12} {a : Word} : zextAddr nnn = a ↔ nnn.toNat = a.toNat := by
  rw [← BitVec.toNat_inj, zextAddr_toNat]

/-- A jump to its own address halts in place (R131). -/
theorem exec_jp_of_self {nnn : BitVec 12} {s : State} (h : zextAddr nnn = s.cur.pc) : exec (.jp nnn) s = .next s :=
  if_pos h

/-- `RET` on an empty stack halts in place (R130, D5). -/
theorem exec_ret_of_empty {s : State} (h : s.cur.sp = 0) : exec .ret s = .next s :=
  if_pos h

/-- `CALL` on a full stack halts in place (R132, D4). -/
theorem exec_call_of_full {nnn : BitVec 12} {s : State} (h : s.cur.sp.toNat = Config.stackDepth) :
    exec (.call nnn) s = .next s :=
  if_pos h

/-- The Live step of a halted machine changes nothing (R262). -/
theorem liveStep_of_halted {s : State} (h : s.halted = true) : liveStep s = .next s := by
  unfold State.halted at h
  split at h <;> rename_i hd
  · exact liveStep_of_rejects hd
  · rw [liveStep_of_decodes hd, exec_jp_of_self (by simpa using h)]
  · rw [liveStep_of_decodes hd, exec_ret_of_empty (by simpa using h)]
  · rw [liveStep_of_decodes hd, exec_call_of_full (by simpa using h)]
  · cases h

/-- Paused or not, a halted Live machine with no pending command steps to itself. -/
theorem step_of_halted {s : State} (hl : s.live) (h : s.halted = true) (hc : s.commands = []) : step s = .next s := by
  rw [step_of_no_command hc]
  cases hp : s.paused with
  | true => rw [execTick, if_pos hp]
  | false => rw [execTick_of_live hl hp, liveStep_of_halted h]

/-- A machine that steps to itself runs to itself. -/
theorem run_of_step_eq_self {M : Host.Core} {s : M.State} (h : M.step s = .next s) (n : Nat) : M.run n s = .next s := by
  induction n with
  | zero => rfl
  | succ n ih => rw [Host.Core.run, h]; exact ih

/-- Settles O10: a halted machine steps to itself. -/
theorem haltedMachineStaysHalted : Obligations.HaltedMachineStaysHalted :=
  fun _ n hl h hc => run_of_step_eq_self (M := core) (step_of_halted hl h hc) n

/-! ### The cycles that commit nothing -/

/-- With `sp` within the depth every instruction answers a next state (log 8). -/
theorem exec_answers (i : Instr) {s : State} (hsp : s.cur.sp.toNat ≤ Config.stackDepth) : ∃ t, exec i s = .next t := by
  cases h : exec i s with
  | next t => exact ⟨t, rfl⟩
  | fault r => exact absurd (exec_fault h) (by omega)
  | refused r => exact absurd h (exec_not_refused i s r)

/-- The instructions that return `NoUpdate`, each under its condition (R118, the cases 3 to 6). -/
def ReturnsNoUpdate (i : Instr) (s : State) : Prop :=
  (∃ nnn, i = .jp nnn ∧ nnn.toNat = s.cur.pc.toNat) ∨ ((∃ x, i = .ldVxK x) ∧ s.keyLatch = none) ∨
  (i = .ret ∧ s.cur.sp.toNat = 0) ∨ ((∃ nnn, i = .call nnn) ∧ s.cur.sp.toNat = 16)

/-- A completed instruction counts one more cycle (R116, R245). -/
theorem totalCycles_of_update {u t : State} {m : MachineState} (h : update u m = .next t) :
    t.totalCycles = u.totalCycles + 1 := by
  rw [update_eq_next.mp h, State.commit_totalCycles]

/-- `JP` commits unless it jumps to its own address (R131). -/
theorem exec_jp_totalCycles_iff {nnn : BitVec 12} {s t : State} (h : exec (.jp nnn) s = .next t) :
    t.totalCycles = s.totalCycles ↔ nnn.toNat = s.cur.pc.toNat := by
  rw [← zextAddr_eq_iff]
  by_cases hself : zextAddr nnn = s.cur.pc
  · rw [exec_jp_of_self hself] at h; cases h; simp [hself]
  · change execJp nnn s = .next t at h
    rw [execJp, if_neg hself] at h
    simp [totalCycles_of_update h, hself]

/-- `RET` commits unless the stack is empty (R130). -/
theorem exec_ret_totalCycles_iff {s t : State} (h : exec .ret s = .next t) :
    t.totalCycles = s.totalCycles ↔ s.cur.sp.toNat = 0 := by
  by_cases hempty : s.cur.sp = 0
  · rw [exec_ret_of_empty hempty] at h; cases h; simp [hempty]
  · have hne : s.cur.sp.toNat ≠ 0 := fun e => hempty (BitVec.eq_of_toNat_eq e)
    change execRet s = .next t at h
    rw [execRet, if_neg hempty] at h
    split at h
    · cases h
    · simp [totalCycles_of_update h, hne]

/-- `CALL` commits unless the stack is full (R132). -/
theorem exec_call_totalCycles_iff {nnn : BitVec 12} {s t : State} (h : exec (.call nnn) s = .next t) :
    t.totalCycles = s.totalCycles ↔ s.cur.sp.toNat = Config.stackDepth := by
  by_cases hfull : s.cur.sp.toNat = Config.stackDepth
  · rw [exec_call_of_full hfull] at h; cases h; simp [hfull]
  · change execCall nnn s = .next t at h
    rw [execCall, if_neg hfull] at h
    split at h
    · cases h
    · simp [totalCycles_of_update h, hfull]

/-- `LD Vx, K` commits unless no key is latched (R206). -/
theorem exec_ldVxK_totalCycles_iff {x : Reg} {s t : State} (h : exec (.ldVxK x) s = .next t) :
    t.totalCycles = s.totalCycles ↔ s.keyLatch = none := by
  obtain ⟨hk, rfl⟩ | ⟨k, hk, rfl⟩ := exec_ldVxK_cases h <;> simp [hk]

/-- An instruction commits nothing exactly if it returns `NoUpdate`; all but four kinds always complete (R118). -/
theorem exec_totalCycles_iff {i : Instr} {s t : State} (h : exec i s = .next t) :
    t.totalCycles = s.totalCycles ↔ ReturnsNoUpdate i s := by
  cases i with
  | jp nnn => simp [ReturnsNoUpdate, exec_jp_totalCycles_iff h]
  | ret => simp [ReturnsNoUpdate, exec_ret_totalCycles_iff h]
  | call nnn => simp [ReturnsNoUpdate, exec_call_totalCycles_iff h]
  | ldVxK x => simp [ReturnsNoUpdate, exec_ldVxK_totalCycles_iff h]
  | _ => simp [ReturnsNoUpdate, totalCycles_of_update h]

/-- Settles O9: a word that is no instruction halts in place (cases 1 and 2), any other word runs its instruction
(cases 3 to 6). -/
theorem noUpdateInExactlySixCases : Obligations.NoUpdateInExactlySixCases := by
  intro s _ hsp
  cases hd : decodeWord (fetchWord s) with
  | error e => exact ⟨s, liveStep_of_rejects hd, iff_of_true rfl (.inr (.inl ⟨e, rfl⟩))⟩
  | ok i =>
    obtain ⟨t, ht⟩ := exec_answers i hsp
    refine ⟨t, (liveStep_of_decodes hd).trans ht, (exec_totalCycles_iff ht).trans ?_⟩
    have hzero : fetchWord s ≠ 0#16 := ne_zero_of_decodeWord_ok hd
    simp [ReturnsNoUpdate, hzero]

/-! ### The timers -/

/-- Only `LD DT, Vx` writes the delay timer (R24, R123). -/
theorem MachineState.Becomes.dt_cases {i : Instr} {m m' : MachineState} (h : m.Becomes i m') :
    m'.dt = m.dt ∨ ∃ x, i = .ldDtVx x := by
  cases h with
  | delay x => exact .inr ⟨x, rfl⟩
  | _ => left; simp

/-- Only `LD ST, Vx` writes the sound timer (R24, R123). -/
theorem MachineState.Becomes.st_cases {i : Instr} {m m' : MachineState} (h : m.Becomes i m') :
    m'.st = m.st ∨ ∃ x, i = .ldStVx x := by
  cases h with
  | sound x => exact .inr ⟨x, rfl⟩
  | _ => left; simp

/-- Settles O52: each timer of the Machine State that an instruction makes is as it was, or the work of its own load. -/
theorem onlyTimerLoadsChangeTimers : Obligations.OnlyTimerLoadsChangeTimers := by
  intro i s t h
  have hm := exec_becomes h
  exact ⟨fun hdt => hm.dt_cases.resolve_left hdt, fun hst => hm.st_cases.resolve_left hst⟩

end Sys2Proof.Machine

/-! ## Control transfer and skips (41_flow.md) -/

namespace Sys2Proof.Claims

open Sys2Proof.Machine

/-! ### Instructions that complete -/

theorem committed_commit (s : State) (m : MachineState) : Committed s (s.commit m) :=
  ⟨rfl, rfl, rfl, fun i hi => (State.slot_commit s m i).trans (if_neg hi)⟩

theorem keepsEngine_of_sameEngine {s t : State} (h : SameEngine s t) : KeepsEngine s t :=
  ⟨fun i => by rw [h.pristine], h.paused, h.stepPending, h.straps, h.keyNow, h.commands⟩

/-- An instruction that answers `Update` on top of `s` completes; no instruction writes an engine field. -/
theorem Updates.of_update {i : Instr} {s : State} {m : MachineState} {P : State → Prop} (h : exec i s = update s m)
    (hP : P (s.commit m)) : Updates i s P :=
  ⟨s.commit m, h, committed_commit s m, keepsEngine_of_sameEngine (exec_sameEngine h), hP⟩

theorem Updates.imp {i : Instr} {s : State} {P Q : State → Prop} (h : Updates i s P) (hPQ : ∀ t, P t → Q t) :
    Updates i s Q := by
  obtain ⟨t, hx, hc, he, hP⟩ := h
  exact ⟨t, hx, hc, he, hPQ t hP⟩

/-! ### Moving `pc`, and with it the stack -/

/-- The frame of a commit that writes at most `pc`, `sp` and the stack. -/
theorem keeps_commit_of_same_data {s : State} {m : MachineState} (hv : m.v = s.cur.v) (hir : m.ir = s.cur.ir)
    (hdt : m.dt = s.cur.dt) (hst : m.st = s.cur.st) (hfb : m.fb = s.cur.fb) :
    KeepsRegs [] s (s.commit m) ∧ KeepsIr s (s.commit m) ∧ KeepsTimers s (s.commit m) ∧ KeepsDisplay s (s.commit m) ∧
      KeepsMem s (s.commit m) ∧ KeepsKeyWait s (s.commit m) ∧ KeepsDraws s (s.commit m) := by
  simp [KeepsRegs, KeepsIr, KeepsTimers, KeepsDisplay, KeepsMem, KeepsKeyWait, KeepsDraws, MachineState.reg, *]

/-- An instruction that commits the current Machine State with another `pc` changes nothing else. -/
theorem updates_of_jump {i : Instr} {s : State} {a : Word} (h : exec i s = update s (s.cur.jump a)) :
    Updates i s fun t => t.cur.pc = a ∧ KeepsRegs [] s t ∧ KeepsAllButRegs s t ∧ KeepsDraws s t := by
  obtain ⟨hregs, hir, htimers, hfb, hmem, hkey, hdraws⟩ :=
    keeps_commit_of_same_data (s := s) (m := s.cur.jump a) rfl rfl rfl rfl rfl
  have hstack : KeepsStack s (s.commit (s.cur.jump a)) := by
    rw [KeepsStack, State.cur_commit]
    exact ⟨rfl, fun _ _ => rfl⟩
  exact .of_update h ⟨by rw [State.cur_commit, MachineState.jump_pc], hregs,
    ⟨hir, htimers, hstack, hfb, hmem, hkey⟩, hdraws⟩

/-! ### Skips -/

/-- An instruction that commits a skip on `b` skips under the condition that `b` decides (R133). -/
theorem skips_of_skipIf {i : Instr} {s : State} {b : Bool} {c : Prop} (hb : b = true ↔ c)
    (h : exec i s = update s (s.cur.skipIf b)) : Skips i s c := by
  refine (updates_of_jump h).imp fun t ⟨hpc, hkeeps⟩ => ⟨fun hc => ?_, fun hc => ?_, hkeeps⟩
  · rw [hpc, if_pos (hb.mpr hc), BitVec.toNat_add]; rfl
  · rw [Advances, hpc, if_neg (mt hb.mp hc), BitVec.toNat_add]; rfl

/-- Settles O18: each of the four commits a skip on the Boolean form of its condition. -/
theorem registerSkipsMovePc : Obligations.RegisterSkipsMovePc := fun _ _ _ _ =>
  ⟨skips_of_skipIf beq_iff_eq rfl, skips_of_skipIf bne_iff_ne rfl, skips_of_skipIf beq_iff_eq rfl,
    skips_of_skipIf bne_iff_ne rfl⟩

/-! ### Jumps -/

/-- The encoder's format NNN is the run of bits of R82. -/
theorem wordNNN_eq_encodeNNN (op : BitVec 4) (nnn : BitVec 12) : wordNNN op nnn = encodeNNN op.toNat nnn := by
  apply BitVec.eq_of_toNat_eq
  rw [Laws.encodeNNN_toNat op.toNat nnn op.isLt, wordNNN, BitVec.toNat_append,
    ← Nat.shiftLeft_add_eq_or_of_lt nnn.isLt, Nat.shiftLeft_eq]

/-- Settles O20: the two branches of `JP`, on whether its target is its own address. -/
theorem jumpSetsPcOrHalts : Obligations.JumpSetsPcOrHalts := by
  refine fun s nnn => ⟨?_, fun hself => exec_jp_of_self (zextAddr_eq_iff.mpr hself), fun hother => ?_⟩
  · rw [wordNNN_eq_encodeNNN]
    exact decodeWord_encode (.jp nnn)
  · have hx : exec (.jp nnn) s = update s (s.cur.jump (zextAddr nnn)) := if_neg (mt zextAddr_eq_iff.mp hother)
    exact (updates_of_jump hx).imp fun t ⟨hpc, hkeeps⟩ => ⟨by rw [hpc, zextAddr_toNat], hkeeps⟩

/-- The 16-bit sum of `JP V0, nnn` does not wrap (R140). -/
theorem zextAddr_add_zextByte_toNat (nnn : BitVec 12) (b : Byte) :
    (zextAddr nnn + zextByte b).toNat = nnn.toNat + b.toNat := by
  have hn := nnn.isLt
  have hb := b.isLt
  rw [BitVec.toNat_add, zextAddr_toNat, zextByte, BitVec.toNat_setWidth]
  omega

/-- Settles O25: `JP V0, nnn` commits a jump in every state, and its target is the sum itself. -/
theorem jumpWithOffsetSetsPc : Obligations.JumpWithOffsetSetsPc := fun s nnn =>
  (updates_of_jump (i := .jpV0 nnn) rfl).imp fun t ⟨hpc, hkeeps⟩ =>
    ⟨by rw [hpc, zextAddr_add_zextByte_toNat], hkeeps⟩

/-! ### Subroutines -/

/-- `CALL` with room on the stack pushes the return address and jumps (R132). -/
theorem exec_call_of_room {nnn : BitVec 12} {s : State} (h : s.cur.sp.toNat < Config.stackDepth) :
    exec (.call nnn) s = update s ((s.cur.push (s.cur.pc + 2)).jump (zextAddr nnn)) := by
  show execCall nnn s = _
  rw [execCall, if_neg h.ne, if_neg h.not_gt]

/-- `RET` with a return address on the stack pops it into `pc` (R130). -/
theorem exec_ret_of_pushed {s : State} (h0 : 0 < s.cur.sp.toNat) (h : s.cur.sp.toNat ≤ Config.stackDepth) :
    exec .ret s = update s s.cur.popToPc := by
  have hne : s.cur.sp ≠ 0 := fun e => by simp [e] at h0
  show execRet s = _
  rw [execRet, if_neg hne, if_neg h.not_gt]

/-- Settles O21: a full stack halts in place; with room, the pushed slot is the one that `sp` counts up to. -/
theorem callPushesReturnAddress : Obligations.CallPushesReturnAddress := by
  refine fun s nnn => ⟨exec_call_of_full, fun hroom => .of_update (exec_call_of_room hroom) ?_⟩
  have hstack (i : Nat) : ((s.cur.push (s.cur.pc + 2)).jump (zextAddr nnn)).stackAt i =
      if i = s.cur.sp.toNat then s.cur.pc + 2 else s.cur.stackAt i :=
    MachineState.stackAt_push s.cur _ i hroom
  have hkeeps := keeps_commit_of_same_data (s := s) (m := (s.cur.push (s.cur.pc + 2)).jump (zextAddr nnn))
    rfl rfl rfl rfl rfl
  rw [State.cur_commit]
  refine ⟨zextAddr_toNat nnn, ?_, ?_, fun i _ hi => by rw [hstack, if_neg hi], hkeeps⟩
  · show (s.cur.sp + 1).toNat = _
    rw [BitVec.toNat_add]
    exact Nat.mod_eq_of_lt (by show _ + 1 < 2 ^ 8; omega)
  · rw [hstack, if_pos rfl, BitVec.toNat_add]; rfl

/-- Settles O22: an empty stack halts in place; else `sp` counts down and no slot is written. -/
theorem returnPopsIntoPc : Obligations.ReturnPopsIntoPc := by
  refine fun s => ⟨fun h => exec_ret_of_empty (BitVec.eq_of_toNat_eq h), fun h0 h16 =>
    .of_update (exec_ret_of_pushed h0 h16) ?_⟩
  have hkeeps := keeps_commit_of_same_data (s := s) (m := s.cur.popToPc) rfl rfl rfl rfl rfl
  rw [State.cur_commit]
  refine ⟨rfl, ?_, fun _ _ => rfl, hkeeps⟩
  show (s.cur.sp - 1).toNat + 1 = _
  have hle : (1 : Byte) ≤ s.cur.sp := BitVec.le_def.mpr h0
  rw [BitVec.toNat_sub_of_le hle]
  exact Nat.sub_add_cancel h0

/-- Settles O23: `RET` pops the slot that `CALL` pushed. -/
theorem returnUndoesCall : Obligations.ReturnUndoesCall := by
  intro s nnn hroom
  obtain ⟨t, hcall, ⟨-, -, hcycle, -⟩, -, -, hsp, hslot, -, hregs, -⟩ := (callPushesReturnAddress s nnn).2 hroom
  obtain ⟨u, hret, ⟨-, -, hcycle', -⟩, -, hpc, hsp', -, hregs', -⟩ := (returnPopsIntoPc t).2 (by omega) (by omega)
  have htop : t.cur.sp.toNat - 1 = s.cur.sp.toNat := by omega
  refine ⟨t, u, hcall, hret, ?_, BitVec.eq_of_toNat_eq (by omega), fun r hr => ?_, by omega⟩
  · rw [hpc, htop, hslot]
  · rw [hregs' r hr, hregs r hr]

end Sys2Proof.Claims

/-! ## Load, arithmetic, logic, shift, random (42_alu.md) -/

namespace Sys2Proof.Claims

open Sys2Proof.Machine

/-! ### Encodings -/

/-- Bits written one field after the other, as a number. -/
theorem append_toNat {k l : Nat} (a : BitVec k) (b : BitVec l) : (a ++ b).toNat = a.toNat * 2 ^ l + b.toNat := by
  rw [BitVec.toNat_append, ← Nat.shiftLeft_add_eq_or_of_lt b.isLt, Nat.shiftLeft_eq]

/-- The encoder's format XYN is the run of bits of R82. -/
theorem wordXYN_eq_encodeXYN (op : BitVec 4) (x y : Reg) (n : BitVec 4) :
    wordXYN op x y n = encodeXYN op.toNat x y n.toFin := by
  apply BitVec.eq_of_toNat_eq
  rw [Laws.encodeXYN_toNat op.toNat x y n.toFin op.isLt]
  simp only [wordXYN, append_toNat, BitVec.toNat_ofNat, BitVec.val_toFin, Nat.mod_eq_of_lt x.isLt,
    Nat.mod_eq_of_lt y.isLt]
  omega

/-- A word of format XYN decodes to the instruction that the encoder writes that way (R84). -/
theorem decodeWord_wordXYN {op n : BitVec 4} {x y : Reg} {i : Instr} (h : encode i = encodeXYN op.toNat x y n.toFin) :
    decodeWord (wordXYN op x y n) = .ok i := by
  rw [wordXYN_eq_encodeXYN, ← h, decodeWord_encode]

/-! ### Instructions that write registers and advance -/

/-- An instruction that commits the current Machine State with other registers, advanced, changes nothing else but the
draw count, which is left at `n`. -/
theorem updates_of_regs {i : Instr} {s : State} {m : MachineState} {n : Nat} (hm : m = { s.cur with v := m.v })
    (h : exec i s = update { s with draws := n } m.advance) :
    Updates i s fun t =>
      (∀ r, t.cur.reg r = m.reg r) ∧ t.draws = n ∧ Advances s t ∧ KeepsAllButRegs s t := by
  have hcur : (State.commit { s with draws := n } m.advance).cur = m.advance := State.cur_commit _ _
  refine ⟨_, h, committed_commit { s with draws := n } _, keepsEngine_of_sameEngine (exec_sameEngine h),
    fun r => by rw [hcur, MachineState.reg_advance], rfl, ?_, ?_⟩
  · rw [Advances, hcur, hm, MachineState.advance_pc, BitVec.toNat_add]; rfl
  · simp only [KeepsAllButRegs, KeepsIr, KeepsTimers, KeepsStack, KeepsDisplay, KeepsMem, KeepsKeyWait, hcur]
    rw [hm]
    exact ⟨rfl, ⟨rfl, rfl⟩, ⟨rfl, fun _ _ => rfl⟩, fun _ _ _ _ => rfl, fun _ => rfl, rfl, rfl⟩

/-- One register written. -/
theorem updates_of_setReg {i : Instr} {s : State} {x : Reg} {b : Byte} {n : Nat}
    (h : exec i s = update { s with draws := n } (s.cur.setReg x b).advance) :
    Updates i s fun t =>
      t.cur.reg x = b ∧ t.draws = n ∧ Advances s t ∧ KeepsRegs [x] s t ∧ KeepsAllButRegs s t := by
  refine (updates_of_regs (m := s.cur.setReg x b) rfl h).imp fun t ⟨hreg, hdraws, hpc, hkeeps⟩ =>
    ⟨?_, hdraws, hpc, fun r hr => ?_, hkeeps⟩
  · rw [hreg, MachineState.reg_setReg, if_pos rfl]
  · rw [hreg, MachineState.reg_setReg, if_neg (List.ne_of_not_mem_cons hr)]

/-- An instruction that ends in `updateReg` writes its byte to `v[x]`, and no flag. -/
theorem writesReg_of_updateReg {i : Instr} {s : State} {x : Reg} {b : Byte} {val : Byte → Prop}
    (h : exec i s = updateReg s x b) (hb : val b) : WritesReg i s x val :=
  (updates_of_setReg (n := s.draws) h).imp fun _ ⟨hx, hdraws, hpc, hregs, hkeeps⟩ =>
    ⟨hx ▸ hb, hpc, hregs, hkeeps, hdraws⟩

theorem flagByte_toNat (f : Bool) : (flagByte f).toNat = f.toNat := by
  cases f <;> rfl

/-- The two writes of R121 touch the registers only. -/
theorem writeResultAndFlag_eq_withRegs (m : MachineState) (p : VfPriority) (x : Reg) (b : Byte) (f : Bool) :
    m.writeResultAndFlag p x b f = { m with v := (m.writeResultAndFlag p x b f).v } := by
  cases p <;> rfl

/-- An instruction that ends in `updateRegFlag` writes its result to `v[x]` and its flag to `v[15]`. -/
theorem writesRegAndFlag_of_updateRegFlag {i : Instr} {s : State} {x : Reg} {b : Byte} {f : Bool} {res : Nat}
    (h : exec i s = updateRegFlag s x b f) (hb : b.toNat = res) : WritesRegAndFlag i s x res f := by
  refine (updates_of_regs (n := s.draws) (writeResultAndFlag_eq_withRegs ..) h).imp
    fun t ⟨hreg, hdraws, hpc, hkeeps⟩ => ?_
  simp only [MachineState.reg_writeResultAndFlag] at hreg
  refine ⟨fun hx => ⟨?_, ?_⟩, fun hx hp => ?_, fun hx hp => ?_, hpc, fun r hr => ?_, hkeeps, hdraws⟩
  · rw [hreg, if_neg hx, if_pos rfl, hb]
  · rw [hreg, if_pos rfl, if_neg (fun hv => hx hv.1), flagByte_toNat]
  · rw [hreg, if_pos rfl, if_neg (by simp [hp]), flagByte_toNat]
  · rw [hreg, if_pos rfl, if_pos ⟨hx, hp⟩, hb]
  · obtain ⟨hrx, hrv⟩ : r ≠ x ∧ r ≠ vf := by simpa using hr
    rw [hreg, if_neg hrv, if_neg hrx]

/-! ### The instructions without a flag -/

/-- Settles O11: each of the three ends in `updateReg` with its source. -/
theorem loadsWriteTheirSource : Obligations.LoadsWriteTheirSource := fun _ _ _ _ =>
  ⟨writesReg_of_updateReg rfl rfl, writesReg_of_updateReg rfl rfl, writesReg_of_updateReg rfl rfl⟩

/-- Settles O12: the sum of two bytes wraps. -/
theorem addImmediateWrapsWithoutFlag : Obligations.AddImmediateWrapsWithoutFlag := fun _ _ _ =>
  writesReg_of_updateReg rfl (BitVec.toNat_add _ _)

/-- Settles O13: the operations on bytes work bit by bit. -/
theorem logicIsBitwiseWithoutFlag : Obligations.LogicIsBitwiseWithoutFlag := fun _ _ _ =>
  ⟨writesReg_of_updateReg rfl fun _ _ => BitVec.getLsbD_or, writesReg_of_updateReg rfl fun _ _ => BitVec.getLsbD_and,
    writesReg_of_updateReg rfl fun _ _ => BitVec.getLsbD_xor⟩

/-- Settles O17: one register written over one draw, whose byte is masked bit by bit. -/
theorem randomIsMaskedDraw : Obligations.RandomIsMaskedDraw := fun _ _ _ =>
  (updates_of_setReg rfl).imp fun _ ⟨hx, hkeeps⟩ => ⟨fun k _ => by rw [hx, BitVec.getLsbD_and], hkeeps⟩

/-! ### The instructions with a flag -/

/-- Settles O14: the sum of two bytes wraps, and the carry is the model's own. -/
theorem addRegisterSetsCarry : Obligations.AddRegisterSetsCarry := fun _ _ _ =>
  ⟨decodeWord_wordXYN rfl, writesRegAndFlag_of_updateRegFlag rfl (BitVec.toNat_add _ _)⟩

/-- The difference of two bytes, modulo 256. -/
theorem byte_sub_toNat (a b : Byte) : (a - b).toNat = (a.toNat + 256 - b.toNat) % 256 := by
  rw [BitVec.toNat_sub', ← Nat.add_sub_assoc b.isLt.le]

/-- Settles O15: both ways round, the difference of two bytes wraps and the flag is the strict comparison. -/
theorem subtractSetsStrictGreater : Obligations.SubtractSetsStrictGreater := fun _ _ _ =>
  ⟨decodeWord_wordXYN rfl, decodeWord_wordXYN rfl, writesRegAndFlag_of_updateRegFlag rfl (byte_sub_toNat _ _),
    writesRegAndFlag_of_updateRegFlag rfl (byte_sub_toNat _ _)⟩

theorem byte_shiftRight_one_toNat (a : Byte) : (a >>> 1).toNat = a.toNat / 2 := by
  rw [BitVec.toNat_ushiftRight, Nat.shiftRight_eq_div_pow, Nat.pow_one]

theorem byte_shiftLeft_one_toNat (a : Byte) : (a <<< 1).toNat = a.toNat * 2 % 256 := by
  rw [BitVec.toNat_shiftLeft, Nat.shiftLeft_eq, Nat.pow_one]

/-- Settles O16: the source named by the quirk is the one that the model shifts. -/
theorem shiftsSetTheBitShiftedOut : Obligations.ShiftsSetTheBitShiftedOut := by
  intro s x y src hsrc
  obtain rfl : src = s.cur.shiftSource s.straps.quirkShiftVy x y := hsrc
  exact ⟨decodeWord_wordXYN rfl, decodeWord_wordXYN rfl,
    writesRegAndFlag_of_updateRegFlag rfl (byte_shiftRight_one_toNat _),
    writesRegAndFlag_of_updateRegFlag rfl (byte_shiftLeft_one_toNat _)⟩

end Sys2Proof.Claims

/-! ## Index register and memory (43_index_memory.md) -/

namespace Sys2Proof.Claims

open Sys2Proof.Machine

/-! ### Encodings -/

/-- The encoder's formats XKK and XFN are the run of bits of R82. -/
theorem wordXKK_eq_encodeXKK (op : BitVec 4) (x : Reg) (kk : Byte) : wordXKK op x kk = encodeXKK op.toNat x kk := by
  apply BitVec.eq_of_toNat_eq
  rw [Laws.encodeXKK_toNat op.toNat x kk op.isLt]
  simp only [wordXKK, append_toNat, BitVec.toNat_ofNat, Nat.mod_eq_of_lt x.isLt]
  omega

/-- A word of format XKK or XFN decodes to the instruction that the encoder writes that way (R84). -/
theorem decodeWord_wordXKK {op : BitVec 4} {x : Reg} {kk : Byte} {i : Instr} (h : encode i = encodeXKK op.toNat x kk) :
    decodeWord (wordXKK op x kk) = .ok i := by
  rw [wordXKK_eq_encodeXKK, ← h, decodeWord_encode]

/-! ### Instructions that write `ir`, registers and memory, and advance -/

/-- An instruction that commits the current Machine State with another `ir` and other registers, advanced, over the
memory `mem` changes nothing else. -/
theorem updates_of_index {i : Instr} {s : State} {m : MachineState} {mem : Memory}
    (hm : m = { s.cur with ir := m.ir, v := m.v }) (h : exec i s = update (s.withMem mem) m.advance) :
    Updates i s fun t =>
      t.mem = mem ∧ t.cur.ir = m.ir ∧ (∀ r, t.cur.reg r = m.reg r) ∧ Advances s t ∧ KeepsTimers s t ∧ KeepsStack s t ∧
        KeepsDisplay s t ∧ KeepsKeyWait s t ∧ KeepsDraws s t := by
  refine ⟨_, h, committed_commit (s.withMem mem) _, keepsEngine_of_sameEngine (exec_sameEngine h), rfl, ?_⟩
  simp only [Advances, KeepsTimers, KeepsStack, KeepsDisplay, State.cur_commit]
  rw [hm]
  exact ⟨rfl, fun _ => rfl, BitVec.toNat_add _ _, ⟨rfl, rfl⟩, ⟨rfl, fun _ _ => rfl⟩, fun _ _ _ _ => rfl, ⟨rfl, rfl⟩, rfl⟩

/-! ### The index register -/

/-- An instruction that commits another `ir`, advanced, writes `ir` only. -/
theorem writesIr_of_withIr {i : Instr} {s : State} {a : Word} {val : Nat}
    (h : exec i s = update s (s.cur.withIr a).advance) (ha : a.toNat = val) : WritesIr i s val :=
  (updates_of_index (m := s.cur.withIr a) (mem := s.mem) rfl h).imp
    fun _ ⟨hmem, hir, hregs, hpc, htimers, hstack, hfb, hkeeps⟩ =>
      ⟨by rw [hir]; exact ha, hpc, fun r _ => hregs r, htimers, hstack, hfb, fun _ => by rw [hmem], hkeeps⟩

/-- The sum of `ADD I, Vx` wraps at 16 bits (D13). -/
theorem add_zextByte_toNat (a : Word) (b : Byte) : (a + zextByte b).toNat = (a.toNat + b.toNat) % 65536 := by
  rw [BitVec.toNat_add, zextByte, BitVec.toNat_setWidth_of_le (by decide)]

/-- The font sprites lie low in memory, so their addresses do not wrap. -/
theorem fontSpriteAddress_toNat (b : Byte) : (fontSpriteAddress b).toNat = 5 * (b.toNat % 16) := by
  rw [fontSpriteAddress, BitVec.toNat_ofNat]
  omega

/-- Settles O26: each of the three commits another `ir`, whose value is that of its 16-bit expression. -/
theorem indexInstructionsWriteIr : Obligations.IndexInstructionsWriteIr := fun _ _ _ =>
  ⟨writesIr_of_withIr rfl (zextAddr_toNat _), writesIr_of_withIr rfl (add_zextByte_toNat _ _),
    writesIr_of_withIr rfl (fontSpriteAddress_toNat _)⟩

/-! ### Stores -/

/-- Reading back a byte of a run that was written, where it is inside memory. -/
theorem memRead_memWriteBytes_add (m : Memory) (a : Nat) {bs : List Byte} {k : Nat} (hk : k < bs.length)
    (h : a + k < 4096) : memRead (memWriteBytes m a bs) (a + k) = bs.getD k 0 := by
  rw [memRead_memWriteBytes, if_pos ⟨Nat.le_add_right a k, Nat.add_lt_add_left hk a, h⟩, Nat.add_sub_cancel_left]

/-- A run of bytes leaves what lies outside it (R54, R56). -/
theorem keepsMemOutside_of_memWriteBytes {s t : State} {a : Nat} {bs : List Byte}
    (h : t.mem = memWriteBytes s.mem a bs) : KeepsMemOutside a bs.length s t := by
  intro i hi
  rw [h, memRead_memWriteBytes, if_neg fun ⟨hlo, hhi, _⟩ => hi ⟨hlo, hhi⟩]

/-- An instruction that writes a run of bytes from `ir` on, and commits at most another `ir`, advanced. -/
theorem updates_of_store {i : Instr} {s : State} {m : MachineState} {bs : List Byte} (hm : m = { s.cur with ir := m.ir })
    (h : exec i s = update (s.withMem (memWriteBytes s.mem (s.cur.dataAddr 0) bs)) m.advance) :
    Updates i s fun t =>
      (∀ k, k < bs.length → s.cur.ir.toNat + k < 4096 → memRead t.mem (s.cur.ir.toNat + k) = bs.getD k 0) ∧
        KeepsMemOutside (s.cur.dataAddr 0) bs.length s t ∧ t.cur.ir = m.ir ∧ Advances s t ∧ KeepsRegs [] s t ∧
        KeepsTimers s t ∧ KeepsStack s t ∧ KeepsDisplay s t ∧ KeepsKeyWait s t ∧ KeepsDraws s t := by
  have hv : m.v = s.cur.v := by rw [hm]
  refine (updates_of_index (by rw [hv]; exact hm) h).imp fun t ⟨hmem, hir, hregs, hpc, hkeeps⟩ =>
    ⟨fun k hk hin => ?_, keepsMemOutside_of_memWriteBytes hmem, hir, hpc, fun r _ => ?_, hkeeps⟩
  · rw [hmem]
    exact memRead_memWriteBytes_add s.mem _ hk hin
  · rw [hregs, MachineState.reg, MachineState.reg, hv]

theorem bcdDigits_length (b : Byte) : (bcdDigits b).length = 3 := rfl

/-- Settles O27: the run that is stored is the three digits, and each is that of the byte as a number. -/
theorem bcdStoresThreeDigits : Obligations.BcdStoresThreeDigits := by
  refine fun s x => ⟨decodeWord_wordXKK rfl, (updates_of_store (i := .ldB x) (m := s.cur) rfl rfl).imp
    fun t ⟨hdigit, hout, hir, hpc, hregs, hkeeps⟩ => ?_⟩
  rw [bcdDigits_length] at hdigit hout
  refine ⟨fun h => ?_, fun h => ?_, fun h => ?_, hout, hpc, hregs, hir, hkeeps⟩
  · exact (congrArg BitVec.toNat (hdigit 0 (by decide) h)).trans BitVec.toNat_udiv
  · rw [hdigit 1 (by decide) h]
    exact BitVec.toNat_umod.trans (congrArg (· % 10) BitVec.toNat_udiv)
  · exact (congrArg BitVec.toNat (hdigit 2 (by decide) h)).trans BitVec.toNat_umod

/-- The index auto-increment, as a number: by `x + 1` modulo 65536 under the quirk (D13), by nothing without. -/
theorem indexInc_ir_cases (m : MachineState) (q : Bool) (x : Reg) :
    (q = true → (m.indexInc q x).ir.toNat = (m.ir.toNat + x.val + 1) % 65536) ∧
      (q = false → (m.indexInc q x).ir = m.ir) := by
  refine ⟨fun hq => ?_, fun hq => by rw [hq]; rfl⟩
  rw [hq, MachineState.indexInc_ir, if_pos rfl, BitVec.toNat_add, BitVec.toNat_ofNat]
  omega

/-- The index auto-increment touches `ir` only. -/
theorem indexInc_eq (m : MachineState) (q : Bool) (x : Reg) :
    m.indexInc q x = { m with ir := (m.indexInc q x).ir } := by
  cases q <;> rfl

/-- Settles O28: the run that is stored is `v[0..x]`. -/
theorem blockStoreWritesRegisters : Obligations.BlockStoreWritesRegisters := by
  refine fun s x => ⟨decodeWord_wordXKK rfl, (updates_of_store (i := .stRegs x) (indexInc_eq _ _ x) rfl).imp
    fun t ⟨hbyte, hout, hir, hkeeps⟩ => ?_⟩
  rw [MachineState.regsUpTo_length] at hbyte hout
  obtain ⟨hinc, hsame⟩ := indexInc_ir_cases s.cur s.straps.quirkIndexInc x
  refine ⟨fun i hi hin => ?_, hout, fun hq => ?_, fun hq => ?_, hkeeps⟩
  · rw [hbyte i.val (Nat.lt_succ_of_le hi) hin]
    exact s.cur.regsUpTo_getD x i.val hi
  · rw [hir, hinc hq]
  · rw [hir, hsame hq]

/-! ### Loads -/

/-- The load of registers with its auto-increment touches `ir` and the registers only. -/
theorem indexInc_loadRegs_eq (m : MachineState) (mem : Memory) (q : Bool) (x : Reg) :
    (m.loadRegs mem x).indexInc q x =
      { m with ir := ((m.loadRegs mem x).indexInc q x).ir, v := ((m.loadRegs mem x).indexInc q x).v } := by
  cases q <;> rfl

/-- Settles O29: the registers up to `x` read at `ir` plus their number, which `memRead` answers with 0 outside. -/
theorem blockLoadReadsRegisters : Obligations.BlockLoadReadsRegisters := by
  intro s x
  refine ⟨decodeWord_wordXKK rfl, (updates_of_index (i := .ldRegs x) (indexInc_loadRegs_eq s.cur s.mem _ x) rfl).imp
    fun t ⟨hmem, hir, hregs, hpc, htimers, hstack, hfb, hkeeps⟩ => ?_⟩
  obtain ⟨hinc, hsame⟩ := indexInc_ir_cases (s.cur.loadRegs s.mem x) s.straps.quirkIndexInc x
  have hreg (r : Reg) : t.cur.reg r = if r ≤ x then memRead s.mem (s.cur.ir.toNat + r.val) else s.cur.reg r := by
    rw [hregs, MachineState.reg_indexInc, MachineState.reg_loadRegs]; rfl
  refine ⟨fun i hi _ => ?_, fun i hi hout => ?_, fun i hi => ?_, fun hq => ?_, fun hq => ?_, hpc, htimers, hstack, hfb,
    fun _ => by rw [hmem], hkeeps⟩
  · rw [hreg, if_pos hi]
  · rw [hreg, if_pos hi, memRead_outside s.mem hout]
  · rw [hreg, if_neg hi.not_ge]
  · rw [hir, hinc hq, MachineState.loadRegs_ir]
  · rw [hir, hsame hq, MachineState.loadRegs_ir]

/-- Settles O30: `LD I` puts back the `ir` that the quirk may have moved, so each register up to `x` is loaded from the
byte it was stored at; no step writes the others. -/
theorem blockLoadReturnsBlockStore : Obligations.BlockLoadReturnsBlockStore := by
  intro s x hin
  obtain ⟨t, hst, -, -, hstored, -, -, -, -, hkept, -⟩ := (blockStoreWritesRegisters s x).2
  obtain ⟨u, hldI, -, -, hir, -, hkept', -, -, -, hmem, -⟩ := (indexInstructionsWriteIr t x (s.cur.ir.setWidth 12)).1
  obtain ⟨v, hld, -, -, hloaded, -, habove, -⟩ := (blockLoadReadsRegisters u x).2
  have hback : u.cur.ir.toNat = s.cur.ir.toNat := by
    rw [hir, BitVec.toNat_setWidth, Nat.mod_eq_of_lt (Nat.lt_of_le_of_lt (Nat.le_add_right _ _) hin)]
  refine ⟨t, u, v, hst, hldI, hld, fun r hr => ?_⟩
  rcases le_or_gt r x with hrx | hrx
  · have hlt : s.cur.ir.toNat + r.val < 4096 := Nat.lt_of_le_of_lt (Nat.add_le_add_left hrx _) hin
    rw [hloaded r hrx (by rwa [hback]), hback, hmem, hstored r hrx hlt]
  · rw [habove r hrx, hkept' r hr, hkept r hr]

end Sys2Proof.Claims

/-! ## Display (44_display.md) -/

namespace Sys2Proof.Claims

open Sys2Proof.Machine

/-! ### Instructions that write the display, registers, and advance -/

/-- An instruction that commits the current Machine State with another display and other registers, advanced, changes
nothing else. -/
theorem updates_of_display {i : Instr} {s : State} {m : MachineState} (hm : m = { s.cur with v := m.v, fb := m.fb })
    (h : exec i s = update s m.advance) :
    Updates i s fun t =>
      t.cur.fb = m.fb ∧ (∀ r, t.cur.reg r = m.reg r) ∧ Advances s t ∧ KeepsIr s t ∧ KeepsTimers s t ∧ KeepsStack s t ∧
        KeepsMem s t ∧ KeepsKeyWait s t ∧ KeepsDraws s t := by
  refine .of_update h ?_
  simp only [Advances, KeepsIr, KeepsTimers, KeepsStack, State.cur_commit]
  rw [hm]
  exact ⟨rfl, fun _ => rfl, BitVec.toNat_add _ _, rfl, ⟨rfl, rfl⟩, ⟨rfl, fun _ _ => rfl⟩, fun _ => rfl, ⟨rfl, rfl⟩, rfl⟩

/-- Settles O31: the display that `CLS` commits is the dark one of the fresh Machine State. -/
theorem clearScreenClearsEveryPixel : Obligations.ClearScreenClearsEveryPixel := fun s =>
  (updates_of_display (i := .cls) (m := s.cur.withFb MachineState.fresh.fb) rfl rfl).imp
    fun _ ⟨hfb, hregs, hpc, hkeeps⟩ =>
      ⟨fun px py _ _ => by rw [hfb]; exact displayPixel_fresh px py, hpc, fun r _ => hregs r, hkeeps⟩

/-! ### The sprite of a draw -/

theorem startCoord_eq_startAt (size : Nat) (b : Byte) : startCoord size b = startAt size b := by
  simp only [startCoord, startAt, ← not_lt, ite_not]

/-- The leftmost pixel of a sprite row is bit 7 of its byte (R186). -/
theorem byte_getMsbD_eq (b : Byte) {c : Nat} (hc : c < 8) : b.getMsbD c = b.getLsbD (7 - c) := by
  simp only [BitVec.getMsbD, hc, decide_true, Bool.true_and]

/-- Inside the grid, the model's row masks have a 1 exactly where R187 lays a sprite bit. -/
theorem drawMask_getMsbD_iff (s : State) (x y : Reg) (n : Fin 16) {px py : Nat} (hpx : px < 64) :
    (drawMask s x y n py).getMsbD px = true ↔ spriteBit s x y n px py := by
  rw [drawMask, spriteMask_getMsbD, startCoord_eq_startAt, startCoord_eq_startAt]
  simp only [Bool.and_eq_true, decide_eq_true_eq, hpx, true_and, and_assoc, spriteBit]
  refine and_congr_right fun _ => and_congr_right fun _ => and_congr_right fun _ => and_congr_right fun hhi => ?_
  rw [byte_getMsbD_eq _ (by omega)]; rfl

theorem flagByte_eq_one_iff (f : Bool) : flagByte f = 1 ↔ f = true := by
  cases f <;> decide

theorem flagByte_zero_or_one (f : Bool) : flagByte f = 0 ∨ flagByte f = 1 := by
  cases f
  · exact .inl rfl
  · exact .inr rfl

/-- A byte that is 0 or 1 is the flag that says which. -/
theorem eq_flagByte {b : Byte} {f : Bool} (hb : b = 0 ∨ b = 1) (h : b = 1 ↔ f = true) : b = flagByte f := by
  cases f
  · exact hb.resolve_right fun h1 => Bool.false_ne_true (h.mp h1)
  · exact h.mpr rfl

/-- A new display and one register written touch the display and the registers only. -/
theorem setReg_withFb_eq (m : MachineState) (fb : Display) (x : Reg) (b : Byte) :
    (m.withFb fb).setReg x b = { m with v := ((m.withFb fb).setReg x b).v, fb := ((m.withFb fb).setReg x b).fb } := rfl

/-- Settles O32: the mask turns over the sprite's pixels, so the pixels that are set and turned over are those that
become clear. -/
theorem drawXorsSpriteAndReportsCollision : Obligations.DrawXorsSpriteAndReportsCollision := by
  intro s x y n
  refine (updates_of_display (i := .drw x y n) (setReg_withFb_eq ..) rfl).imp fun t ⟨hfb, hregs, hpc, hkeeps⟩ => ?_
  have hpixel {px py : Nat} (hpy : py < 32) :
      displayPixel t.cur.fb px py = (displayPixel s.cur.fb px py ^^ (drawMask s x y n py).getMsbD px) := by
    rw [hfb]
    exact displayPixel_xorDisplay _ _ px py hpy
  have hflag : t.cur.reg 15 = flagByte (collisionFlag s.cur.fb (drawMask s x y n)) :=
    (hregs 15).trans ((MachineState.reg_setReg ..).trans (if_pos rfl))
  refine ⟨fun px py hpx hpy hbit => ?_, fun px py hpx hpy hbit => ?_, ?_, ?_, hpc, fun r hr => ?_, hkeeps⟩
  · rw [hpixel hpy, (drawMask_getMsbD_iff s x y n hpx).mpr hbit, Bool.xor_true]
  · rw [hpixel hpy, Bool.eq_false_iff.mpr (mt (drawMask_getMsbD_iff s x y n hpx).mp hbit), Bool.xor_false]
  · rw [hflag]
    exact flagByte_zero_or_one _
  · rw [hflag, flagByte_eq_one_iff, collisionFlag_iff]
    refine exists₂_congr fun px py => and_congr_right fun _ => and_congr_right fun hpy => and_congr_right fun hset => ?_
    rw [hpixel hpy, hset, Bool.true_xor, Bool.not_eq_false']
  · rw [hregs, MachineState.reg_setReg, if_neg (List.ne_of_not_mem_cons hr), MachineState.reg_withFb]

/-- Settles O34: the second draw turns over the pixels of the first once more, so the pixels that it clears are those
that the first set. -/
theorem drawTwiceRestoresDisplay : Obligations.DrawTwiceRestoresDisplay := by
  intro s x y n hx hy
  obtain ⟨t, ht, -, -, hon, hoff, -, -, -, hregs, hir, -, -, hmem, -⟩ := drawXorsSpriteAndReportsCollision s x y n
  obtain ⟨u, hu, -, -, hon', hoff', hbool, hcollides, -⟩ := drawXorsSpriteAndReportsCollision t x y n
  have hbit (px py : Nat) : spriteBit t x y n px py ↔ spriteBit s x y n px py := by
    rw [spriteBit, spriteBit, hregs x (List.not_mem_cons_of_ne_of_not_mem hx List.not_mem_nil),
      hregs y (List.not_mem_cons_of_ne_of_not_mem hy List.not_mem_nil), hir, hmem]
  have hback (px py : Nat) (hpx : px < 64) (hpy : py < 32) :
      displayPixel u.cur.fb px py = displayPixel s.cur.fb px py := by
    by_cases hb : spriteBit s x y n px py
    · rw [hon' px py hpx hpy ((hbit px py).mpr hb), hon px py hpx hpy hb, Bool.not_not]
    · rw [hoff' px py hpx hpy (mt (hbit px py).mp hb), hoff px py hpx hpy hb]
  have hflag : u.cur.reg 15 = 1 ↔ ∃ px py, px < 64 ∧ py < 32 ∧ displayPixel s.cur.fb px py = false ∧
      displayPixel t.cur.fb px py = true := by
    refine hcollides.trans (exists₂_congr fun px py => and_congr_right fun hpx => and_congr_right fun hpy => ?_)
    rw [hback px py hpx hpy, and_comm]
  exact ⟨t, u, ht, hu, hback, hflag.mpr, fun hnone => hbool.resolve_right (mt hflag.mp hnone)⟩

/-! ### The loops of R187 -/

/-- What the loops carry along: the grid of pixels and the collision bit. -/
abbrev DrawAcc := (Nat → Nat → Bool) × Bool

/-- From `acc` to `acc'` exactly the pixels of `T` are turned over, and the collision bit is raised if one of them was
set. -/
structure TurnsOver (T : Nat → Nat → Prop) (acc acc' : DrawAcc) : Prop where
  on : ∀ i j, T i j → acc'.1 i j = !acc.1 i j
  off : ∀ i j, ¬T i j → acc'.1 i j = acc.1 i j
  flag : acc'.2 = true ↔ acc.2 = true ∨ ∃ i j, T i j ∧ acc.1 i j = true

theorem TurnsOver.of_empty {T : Nat → Nat → Prop} {acc : DrawAcc} (h : ∀ i j, ¬T i j) : TurnsOver T acc acc where
  on i j hT := absurd hT (h i j)
  off _ _ _ := rfl
  flag := ⟨.inl, fun h' => h'.resolve_right fun ⟨i, j, hT, _⟩ => h i j hT⟩

theorem TurnsOver.congr {T U : Nat → Nat → Prop} {acc acc' : DrawAcc} (h : TurnsOver T acc acc')
    (hTU : ∀ i j, T i j ↔ U i j) : TurnsOver U acc acc' := by
  rwa [← funext₂ fun i j => propext (hTU i j)]

/-- Two steps over pixels that do not meet turn over the pixels of both. -/
theorem TurnsOver.trans {T U : Nat → Nat → Prop} {a b c : DrawAcc} (hT : TurnsOver T a b)
    (hU : TurnsOver U b c) (hdisj : ∀ i j, T i j → ¬U i j) : TurnsOver (fun i j => T i j ∨ U i j) a c where
  on i j h := by
    rcases h with h | h
    · rw [hU.off i j (hdisj i j h), hT.on i j h]
    · rw [hU.on i j h, hT.off i j fun h' => hdisj i j h' h]
  off i j h := by
    obtain ⟨hnT, hnU⟩ := not_or.mp h
    rw [hU.off i j hnU, hT.off i j hnT]
  flag := by
    have hkept : (∃ i j, U i j ∧ b.1 i j = true) ↔ ∃ i j, U i j ∧ a.1 i j = true :=
      exists₂_congr fun i j => and_congr_right fun h => by rw [hT.off i j fun h' => hdisj i j h' h]
    simp only [hU.flag, hT.flag, hkept, or_and_right, exists_or, or_assoc]

/-- A loop whose passes turn over pixels that do not meet turns over the pixels of all its passes. -/
theorem turnsOver_foldl_range {f : DrawAcc → Nat → DrawAcc} {T : Nat → Nat → Nat → Prop}
    (hf : ∀ k acc, TurnsOver (T k) acc (f acc k)) (hdisj : ∀ k l i j, T k i j → T l i j → k = l) (n : Nat) (acc : DrawAcc) :
    TurnsOver (fun i j => ∃ k, k < n ∧ T k i j) acc ((List.range n).foldl f acc) := by
  induction n with
  | zero => exact .of_empty fun _ _ ⟨_, hk, _⟩ => Nat.not_lt_zero _ hk
  | succ n ih =>
    rw [List.range_succ, List.foldl_append]
    refine (ih.trans (hf n _) fun i j ⟨k, hk, hT⟩ hn => hk.ne (hdisj k n i j hT hn)).congr fun i j => ?_
    simp only [Nat.lt_succ_iff_lt_or_eq, or_and_right, exists_or, exists_eq_left]

/-- Pixel (`i`, `j`) of the grid is the one that pass (`r`, `c`) of R187's loops meets, and its sprite bit is 1. -/
def PassTurnsOver (mem : Memory) (a x0 y0 r c i j : Nat) : Prop :=
  (i = x0 + c ∧ j = y0 + r) ∧ (i ≤ 63 ∧ j ≤ 31) ∧ (memRead mem (a + r)).getLsbD (7 - c) = true

theorem drawColumn_turnsOver (mem : Memory) (a x0 : Nat) {y0 r : Nat} (hrow : y0 + r ≤ 31) (c : Nat) (acc : DrawAcc) :
    TurnsOver (PassTurnsOver mem a x0 y0 r c) acc (drawColumn (memRead mem (a + r)) x0 (y0 + r) acc c) := by
  unfold drawColumn
  split
  case isTrue h =>
    have hpass (i j : Nat) : PassTurnsOver mem a x0 y0 r c i j ↔ i = x0 + c ∧ j = y0 + r :=
      ⟨And.left, fun ⟨hi, hj⟩ => ⟨⟨hi, hj⟩, ⟨hi ▸ h.1, hj ▸ hrow⟩, h.2⟩⟩
    refine TurnsOver.congr (T := fun i j => i = x0 + c ∧ j = y0 + r) ⟨fun i j hij => ?_, fun i j hij => if_neg hij, ?_⟩
      fun i j => (hpass i j).symm
    · rw [hij.1, hij.2]
      exact if_pos ⟨rfl, rfl⟩
    · simp
  case isFalse h => exact .of_empty fun i j ⟨⟨hi, _⟩, ⟨hin, _⟩, hbit⟩ => h ⟨hi ▸ hin, hbit⟩

theorem drawRow_turnsOver (mem : Memory) (a x0 y0 r : Nat) (acc : DrawAcc) :
    TurnsOver (fun i j => ∃ c, c < 8 ∧ PassTurnsOver mem a x0 y0 r c i j) acc (drawRow mem a x0 y0 acc r) := by
  unfold drawRow
  split
  case isTrue h =>
    exact turnsOver_foldl_range (drawColumn_turnsOver mem a x0 h)
      (fun c d i j ⟨⟨hi, _⟩, _⟩ ⟨⟨hi', _⟩, _⟩ => by omega) 8 acc
  case isFalse h => exact .of_empty fun i j ⟨_, _, ⟨_, hj⟩, ⟨_, hin⟩, _⟩ => h (hj ▸ hin)

/-- The loops of R187 turn over the pixels of all their passes. -/
theorem drawLoop_turnsOver (mem : Memory) (a x0 y0 n : Nat) (grid : Nat → Nat → Bool) :
    TurnsOver (fun i j => ∃ r, r < n ∧ ∃ c, c < 8 ∧ PassTurnsOver mem a x0 y0 r c i j) (grid, false)
      (drawLoop mem a x0 y0 n grid) :=
  turnsOver_foldl_range (drawRow_turnsOver mem a x0 y0)
    (fun r q i j ⟨_, _, ⟨_, hj⟩, _⟩ ⟨_, _, ⟨_, hj'⟩, _⟩ => by omega) n (grid, false)

/-- The passes that meet pixel (`i`, `j`) are one, with row and column offset as in `spriteBit`. -/
theorem exists_passTurnsOver_iff_spriteBit (s : State) (x y : Reg) (n : Fin 16) (i j : Nat) :
    (∃ r, r < n.val ∧ ∃ c, c < 8 ∧
      PassTurnsOver s.mem s.cur.ir.toNat (startAt 64 (s.cur.reg x)) (startAt 32 (s.cur.reg y)) r c i j) ↔
        (i < 64 ∧ j < 32) ∧ spriteBit s x y n i j := by
  unfold PassTurnsOver spriteBit
  generalize startAt 64 (s.cur.reg x) = x0
  generalize startAt 32 (s.cur.reg y) = y0
  constructor
  · rintro ⟨r, hr, c, hc, ⟨rfl, rfl⟩, ⟨hi, hj⟩, hbit⟩
    refine ⟨⟨by omega, by omega⟩, by omega, by omega, by omega, by omega, ?_⟩
    rwa [Nat.add_sub_cancel_left, Nat.add_sub_cancel_left]
  · rintro ⟨⟨hi, hj⟩, hy, hyn, hx, hx8, hbit⟩
    exact ⟨j - y0, by omega, i - x0, by omega, ⟨by omega, by omega⟩, ⟨by omega, by omega⟩, hbit⟩

/-- Settles O33: the model and the loops turn over the same pixels, so they agree on each pixel, and on whether one that
was set is now clear. -/
theorem drawRefinesTheRulesLoops : Obligations.DrawRefinesTheRulesLoops := by
  rintro s x y n out rfl
  obtain ⟨t, ht, -, -, hon, hoff, hbool, hcollides, -⟩ := drawXorsSpriteAndReportsCollision s x y n
  obtain ⟨lon, loff, lflag⟩ := (drawLoop_turnsOver s.mem s.cur.ir.toNat (startAt 64 (s.cur.reg x))
    (startAt 32 (s.cur.reg y)) n.val (displayPixel s.cur.fb)).congr (exists_passTurnsOver_iff_spriteBit s x y n)
  refine ⟨t, ht, fun px py hpx hpy => ?_, ?_⟩
  · by_cases hbit : spriteBit s x y n px py
    · rw [hon px py hpx hpy hbit, lon px py ⟨⟨hpx, hpy⟩, hbit⟩]
    · rw [hoff px py hpx hpy hbit, loff px py fun h => hbit h.2]
  · suffices hflag : t.cur.reg 15 = 1 ↔ (drawLoop ..).2 = true by rw [eq_flagByte hbool hflag, flagByte_toNat]
    simp only [hcollides, lflag, Bool.false_eq_true, false_or, and_assoc]
    refine exists₂_congr fun px py => and_congr_right fun hpx => and_congr_right fun hpy => ?_
    by_cases hbit : spriteBit s x y n px py
    · simp [hon px py hpx hpy hbit, hbit]
    · simp [hoff px py hpx hpy hbit, hbit]

end Sys2Proof.Claims

/-! ## Timers and keys (45_timers_keys.md) -/

namespace Sys2Proof.Machine

/-! ### Runs -/

/-- A run goes on from where its first steps lead. -/
theorem run_add {M : Host.Core} {m : Nat} {s t : M.State} (h : M.run m s = .next t) (n : Nat) :
    M.run (m + n) s = M.run n t := by
  induction m generalizing s with
  | zero => cases h; rw [Nat.zero_add]
  | succ m ih =>
    rw [Nat.succ_add, Host.Core.run]
    rw [Host.Core.run] at h
    cases hs : M.step s with
    | next s' => rw [hs] at h; exact ih h
    | fault r => rw [hs] at h; cases h
    | refused r => rw [hs] at h; cases h

/-- A run takes the machine's step, and goes on. -/
theorem run_succ_of_step {s t : core.State} (h : step s = .next t) (n : Nat) :
    Host.Core.run core (n + 1) s = Host.Core.run core n t := by
  rw [Host.Core.run, show core.step s = .next t from h]

/-! ### What the key instructions read and do -/

theorem zextKey_toNat (k : Key) : (zextKey k).toNat = k.toNat :=
  BitVec.toNat_setWidth_of_le (by decide)

/-- A polled key is the one that a register names if their values agree; no key names nothing (R205, D19). -/
theorem keyPressedIs_iff {keyNow : Option Key} {b : Byte} :
    keyPressedIs keyNow b = true ↔ ∃ k : Key, keyNow = some k ∧ k.toNat = b.toNat := by
  cases keyNow with
  | none => simp [keyPressedIs]
  | some k => simp [keyPressedIs, ← BitVec.toNat_inj (x := zextKey k), zextKey_toNat]

/-- `LD Vx, K` without a latched key only begins the wait (R206). -/
theorem exec_ldVxK_of_no_latch {s : State} (x : Reg) (h : s.keyLatch = none) :
    exec (.ldVxK x) s = .next { s with waiting := true } := by
  show execLdVxK x s = _
  simp only [execLdVxK, h, State.withKeyWait]

/-- `LD Vx, K` with a latched key consumes it (R206). -/
theorem exec_ldVxK_of_latch {s : State} {k : Key} (x : Reg) (h : s.keyLatch = some k) :
    exec (.ldVxK x) s = update (s.withKeyWait false none) (s.cur.setReg x (zextKey k)).advance := by
  show execLdVxK x s = _
  rw [execLdVxK, h]

end Sys2Proof.Machine

namespace Sys2Proof.Claims

open Sys2Proof.Machine

/-! ### The key skips -/

/-- Settles O19: both commit a skip on the comparison of the polled key, `SKNP` on its negation. -/
theorem keySkipsMovePc : Obligations.KeySkipsMovePc := by
  intro s x pressed hpressed
  have hb : keyPressedIs s.keyNow (s.cur.reg x) = true ↔ pressed := keyPressedIs_iff.trans hpressed.symm
  exact ⟨skips_of_skipIf hb rfl, skips_of_skipIf (by rw [← hb, Bool.not_eq_true', Bool.not_eq_true]) rfl⟩

/-! ### The timer loads -/

/-- An instruction that commits the current Machine State with other timers, advanced, changes nothing else. -/
theorem updates_of_timers {i : Instr} {s : State} {m : MachineState} (hm : m = { s.cur with dt := m.dt, st := m.st })
    (h : exec i s = update s m.advance) :
    Updates i s fun t => t.cur.dt = m.dt ∧ t.cur.st = m.st ∧ Advances s t ∧ KeepsRegs [] s t ∧ KeepsIr s t ∧
      KeepsStack s t ∧ KeepsDisplay s t ∧ KeepsMem s t ∧ KeepsKeyWait s t ∧ KeepsDraws s t := by
  refine .of_update h ?_
  simp only [Advances, KeepsRegs, KeepsIr, KeepsStack, KeepsDisplay, State.cur_commit]
  rw [hm]
  exact ⟨rfl, rfl, BitVec.toNat_add _ _, fun _ _ => rfl, rfl, ⟨rfl, fun _ _ => rfl⟩, fun _ _ _ _ => rfl,
    fun _ => rfl, ⟨rfl, rfl⟩, rfl⟩

/-- Settles O35: each of the two commits one other timer. -/
theorem timerLoadsWriteOneTimer : Obligations.TimerLoadsWriteOneTimer := fun s x =>
  ⟨updates_of_timers (m := { s.cur with dt := s.cur.reg x }) rfl rfl,
    (updates_of_timers (m := { s.cur with st := s.cur.reg x }) rfl rfl).imp
      fun _ ⟨hdt, hst, hkeeps⟩ => ⟨hst, hdt, hkeeps⟩⟩

/-! ### The key load -/

/-- Settles O36: the two arms of `LD Vx, K`, on whether a key is latched. -/
theorem keyLoadWaitsOrConsumes : Obligations.KeyLoadWaitsOrConsumes := by
  refine fun s x => ⟨exec_ldVxK_of_no_latch x, fun k hk => ?_⟩
  have hx := exec_ldVxK_of_latch x hk
  refine ⟨_, hx, committed_commit (s.withKeyWait false none) _, keepsEngine_of_sameEngine (exec_sameEngine hx), ?_⟩
  simp only [Advances, KeepsRegs, KeepsIr, KeepsTimers, KeepsStack, KeepsDisplay, State.cur_commit,
    MachineState.reg_advance, MachineState.reg_setReg]
  exact ⟨zextKey_toNat k, rfl, rfl, BitVec.toNat_add _ _,
    fun r hr => if_neg (List.ne_of_not_mem_cons hr), rfl, ⟨rfl, rfl⟩, ⟨rfl, fun _ _ => rfl⟩, fun _ _ _ _ => rfl,
    fun _ => rfl, rfl⟩

/-! ### The key latch -/

/-- Settles O38: `KEY_PRESSED` looks at the waiting flag only. -/
theorem keyPressIsLatchedOnlyWhileWaiting : Obligations.KeyPressIsLatchedOnlyWhileWaiting := by
  intro s k rest hc
  rw [step_of_command hc]
  exact ⟨fun hw => congrArg _ (if_pos hw), fun hw => congrArg _ (if_neg (ne_true_of_eq_false hw))⟩

/-! ### The key wait -/

/-- The machine `s` while it waits for a key: only the waiting flag, the latch and the inputs differ (R263). -/
def keyWaiting (s : State) (latch key : Option Key) (cs : List Command) : State :=
  { s with waiting := true, keyLatch := latch, keyNow := key, commands := cs }

/-- `EXEC_TICK` on a Live, unpaused machine runs the decoded instruction, under the polled key that it carries (R41,
R246). -/
theorem step_execTick_of_decodes {s : State} {i : Instr} {key : Option Key} {rest : List Command} (hl : s.live)
    (hp : s.paused = false) (hd : decodeWord (fetchWord s) = .ok i) (hc : s.commands = .execTick key :: rest) :
    step s = exec i { s with commands := rest, keyNow := key } := by
  obtain ⟨-, htick, -⟩ := stepRunsDecodedInstruction s i hl hd
  exact htick hp key rest hc

/-- A tick on a Live, unpaused machine at `LD Vx, K` without a latched key begins the wait, or leaves it as it is
(R263). -/
theorem step_execTick_of_no_latch {s : State} {x : Reg} (hl : s.live) (hp : s.paused = false) (hk : s.keyLatch = none)
    (hd : decodeWord (fetchWord s) = .ok (.ldVxK x)) (key : Option Key) (cs : List Command) :
    step (withCommands s (.execTick key :: cs)) = .next (keyWaiting s none key cs) := by
  have hstep := step_execTick_of_decodes (s := withCommands s (.execTick key :: cs)) hl hp hd rfl
  refine hstep.trans ((exec_ldVxK_of_no_latch (s := { s with keyNow := key, commands := cs }) x hk).trans ?_)
  rw [keyWaiting, ← hk]

/-- Such a machine waits after any positive number of ticks: the first leaves it as it finds the next. -/
theorem run_execTicks_of_no_latch {s : State} {x : Reg} (hl : s.live) (hp : s.paused = false) (hk : s.keyLatch = none)
    (hd : decodeWord (fetchWord s) = .ok (.ldVxK x)) (tick : Option Key) (ticks : List (Option Key))
    (cs : List Command) :
    ∃ key, Host.Core.run core (ticks.length + 1) (withCommands s (.execTick tick :: (ticks.map .execTick ++ cs))) =
      .next (keyWaiting s none key cs) := by
  induction ticks generalizing s tick with
  | nil => exact ⟨tick, run_succ_of_step (step_execTick_of_no_latch hl hp hk hd tick cs) 0⟩
  | cons tick' ticks ih =>
    obtain ⟨key, hrun⟩ := ih (s := keyWaiting s none tick []) hl hp rfl hd tick'
    exact ⟨key, (run_succ_of_step (step_execTick_of_no_latch hl hp hk hd tick _) _).trans hrun⟩

/-- Of the keys pressed while a machine waits, the latch holds the last (R207, D20). -/
theorem run_keyPresses_of_waiting (s : State) (latch key : Option Key) (presses : List Key) (k : Key)
    (cs : List Command) :
    Host.Core.run core (presses.length + 1)
      (keyWaiting s latch key (presses.map .keyPressed ++ [.keyPressed k] ++ cs)) =
      .next (keyWaiting s (some k) key cs) := by
  have hpress (latch : Option Key) (p : Key) (rest : List Command) :
      step (keyWaiting s latch key (.keyPressed p :: rest)) = .next (keyWaiting s (some p) key rest) :=
    (keyPressIsLatchedOnlyWhileWaiting _ p rest rfl).1 rfl
  induction presses generalizing latch with
  | nil => exact run_succ_of_step (hpress latch k cs) 0
  | cons p presses ih => exact (run_succ_of_step (hpress latch p _) _).trans (ih (some p))

/-- Settles O37: the ticks leave the machine waiting, the presses leave the last of them in the latch, and the last tick
is the key load that consumes it. -/
theorem keyWaitEndsWithLastPress : Obligations.KeyWaitEndsWithLastPress := by
  intro s x ticks presses k key hl hp hk hd hne
  obtain ⟨tick, ticks, rfl⟩ := List.exists_cons_of_ne_nil hne
  have hwaits := run_execTicks_of_no_latch hl hp hk hd tick ticks
  constructor
  · obtain ⟨key', hrun⟩ := hwaits []
    rw [List.append_nil] at hrun
    exact ⟨_, hrun, by rw [keyWaiting, ← hk]⟩
  · obtain ⟨key', hticks⟩ := hwaits (presses.map .keyPressed ++ [.keyPressed k] ++ [.execTick key])
    have hpresses := run_keyPresses_of_waiting s none key' presses k [.execTick key]
    obtain ⟨u, hexec, ⟨-, -, hcycle, -⟩, -, hreg, hlatch, hwaiting, hpc, hregs, -⟩ :=
      (keyLoadWaitsOrConsumes (keyWaiting s (some k) key []) x).2 k rfl
    have hstep : step (keyWaiting s (some k) key' [.execTick key]) = .next u :=
      (step_execTick_of_decodes (s := keyWaiting s (some k) key' _) hl hp hd rfl).trans hexec
    refine ⟨u, ?_, hreg, hpc, hwaiting, hlatch, hcycle, hregs⟩
    rw [Nat.add_assoc, List.append_assoc]
    exact (run_add hticks _).trans ((run_add hpresses 1).trans (run_succ_of_step hstep 0))

end Sys2Proof.Claims

/-! ## The engine around the cycle (60_exceptions.md): the ticks, the pause, the timers, the history -/

namespace Sys2Proof.Machine

/-! ### What the engine step and the ticks answer -/

theorem engineStep_eq_of_live {s : State} (hl : s.live) : engineStep s = liveStep s :=
  if_pos hl

theorem engineStep_eq_of_replaying {s : State} (hne : s.current ≠ s.head) :
    engineStep s = .next { s with current := ringNext s.current } :=
  if_neg hne

theorem execTick_of_paused {s : State} (hp : s.paused = true) : execTick s = .next s :=
  if_pos hp

theorem execTick_of_running {s : State} (hp : s.paused = false) : execTick s = engineStep s :=
  if_neg (ne_true_of_eq_false hp)

theorem stepFwd_of_paused {s : State} (hp : s.paused = true) : stepFwd s = withStepPending (engineStep s) :=
  if_pos hp

theorem stepFwd_of_running {s : State} (hp : s.paused = false) : stepFwd s = .next s :=
  if_neg (ne_true_of_eq_false hp)

/-- An unpaused `EXEC_TICK` replays (R244, R246, D25). -/
theorem execTick_of_replaying {s : State} (hp : s.paused = false) (hne : s.current ≠ s.head) :
    execTick s = .next { s with current := ringNext s.current } := by
  rw [execTick_of_running hp, engineStep_eq_of_replaying hne]

/-- A paused `STEP_FWD` replays, and sets the step-pending bit (R244, R247, D23). -/
theorem stepFwd_of_replaying {s : State} (hp : s.paused = true) (hne : s.current ≠ s.head) :
    stepFwd s = .next { s with current := ringNext s.current, stepPending := true } := by
  rw [stepFwd_of_paused hp, engineStep_eq_of_replaying hne, withStepPending]

/-- Settles O39: the two branches of the engine step. -/
theorem engineStepIsLiveOrReplay : Obligations.EngineStepIsLiveOrReplay := fun s =>
  ⟨engineStep_eq_of_live, fun hne => ⟨ringNext s.current, rfl, engineStep_eq_of_replaying hne⟩⟩

/-- Settles O40: each command runs on the state that its taking, and the key level it carries, leave. -/
theorem pauseGatesTheTicks : Obligations.PauseGatesTheTicks := by
  refine fun s rest key => ⟨fun hc => ?_, fun hc hp => ?_, fun hc hp => ?_⟩ <;> rw [step_of_command hc]
  · rfl
  · exact execTick_of_paused (s := { s with commands := rest, keyNow := key }) hp
  · exact stepFwd_of_running (s := { s with commands := rest, keyNow := key }) hp

/-- Settles O58: the three ticks all come to the replay branch of the engine step. -/
theorem ticksReplayWhileReplaying : Obligations.TicksReplayWhileReplaying := by
  refine fun s hne => ⟨ringNext s.current, rfl, fun hp hc => ?_, fun key rest hp hc => ?_, fun key rest hp hc => ?_⟩
  · rw [step_of_no_command hc, execTick_of_replaying hp hne]
  · rw [step_of_command hc]
    exact execTick_of_replaying (s := { s with commands := rest, keyNow := key }) hp hne
  · rw [step_of_command hc]
    exact stepFwd_of_replaying (s := { s with commands := rest, keyNow := key }) hp hne

/-! ### Every step answers -/

/-- With `sp` within the depth a Live step answers: only `RET` and `CALL` above it fault (R220, log 8). -/
theorem liveStep_answers {s : State} (hsp : s.cur.sp.toNat ≤ Config.stackDepth) : ∃ t, liveStep s = .next t := by
  cases hd : decodeWord (fetchWord s) with
  | error e => exact ⟨s, liveStep_of_rejects hd⟩
  | ok i => rw [liveStep_of_decodes hd]; exact exec_answers i hsp

theorem engineStep_answers {s : State} (hsp : s.cur.sp.toNat ≤ Config.stackDepth) : ∃ t, engineStep s = .next t := by
  by_cases hl : s.live
  · rw [engineStep_eq_of_live hl]; exact liveStep_answers hsp
  · exact ⟨_, engineStep_eq_of_replaying hl⟩

theorem execTick_answers {s : State} (hsp : s.cur.sp.toNat ≤ Config.stackDepth) : ∃ t, execTick s = .next t := by
  cases hp : s.paused with
  | true => exact ⟨s, execTick_of_paused hp⟩
  | false => rw [execTick_of_running hp]; exact engineStep_answers hsp

theorem stepFwd_answers {s : State} (hsp : s.cur.sp.toNat ≤ Config.stackDepth) : ∃ t, stepFwd s = .next t := by
  cases hp : s.paused with
  | false => exact ⟨s, stepFwd_of_running hp⟩
  | true =>
    obtain ⟨t, ht⟩ := engineStep_answers hsp
    exact ⟨_, by rw [stepFwd_of_paused hp, ht, withStepPending]⟩

/-- Of the commands only the two that run the engine could stop. -/
theorem runCommand_answers (c : Command) {s : State} (hsp : s.cur.sp.toNat ≤ Config.stackDepth) :
    ∃ t, runCommand c s = .next t := by
  cases c with
  | execTick key => exact execTick_answers (s := { s with keyNow := key }) hsp
  | stepFwd key => exact stepFwd_answers (s := { s with keyNow := key }) hsp
  | _ => exact ⟨_, rfl⟩

/-- Settles O50: the invariant bounds `sp` in every slot, the current one among them. -/
theorem everyStepAnswers : Obligations.EveryStepAnswers := by
  intro s hi
  obtain ⟨hsp, -⟩ := hi.slotsOk s.current
  cases hc : s.commands with
  | nil => rw [SafeStep, step_of_no_command hc]; exact execTick_answers hsp
  | cons c rest =>
    rw [SafeStep, step_of_command hc]
    exact runCommand_answers c (s := { s with commands := rest }) hsp

/-! ### The timer tick -/

@[simp] theorem timerTick_current (s : State) : (timerTick s).current = s.current := by
  obtain ⟨h, -⟩ | ⟨h, -⟩ := timerTick_cases s <;> simp [h]

@[simp] theorem timerTick_paused (s : State) : (timerTick s).paused = s.paused := by
  obtain ⟨h, -⟩ | ⟨h, -⟩ := timerTick_cases s <;> simp [h]

@[simp] theorem timerTick_stepPending (s : State) : (timerTick s).stepPending = false := by
  obtain ⟨h, -⟩ | ⟨h, -⟩ := timerTick_cases s <;> simp [h]

@[simp] theorem timerTick_keyNow (s : State) : (timerTick s).keyNow = s.keyNow := by
  obtain ⟨h, -⟩ | ⟨h, -⟩ := timerTick_cases s <;> simp [h]

@[simp] theorem timerTick_commands (s : State) : (timerTick s).commands = s.commands := by
  obtain ⟨h, -⟩ | ⟨h, -⟩ := timerTick_cases s <;> simp [h]

/-- The current Machine State is ticked when running or just stepped, and else stays (R230, R231, D23). -/
theorem timerTick_cur_cases (s : State) :
    ((timerTick s).cur = s.cur.tick ∧ (s.paused = false ∨ s.stepPending = true)) ∨
    ((timerTick s).cur = s.cur ∧ s.paused = true ∧ s.stepPending = false) := by
  obtain ⟨h, heffective⟩ | ⟨h, hidle⟩ := timerTick_cases s <;> rw [h]
  · exact .inl ⟨State.cur_editCur s _, heffective⟩
  · exact .inr ⟨rfl, hidle⟩

end Sys2Proof.Machine

namespace Sys2Proof.Claims

open Sys2Proof.Machine

/-- A Machine State that differs in its timers at most reads alike in all else. -/
theorem keeps_of_cur_timers {s t : State} {dt st : Byte} (h : t.cur = { s.cur with dt := dt, st := st }) :
    t.cur.pc = s.cur.pc ∧ KeepsRegs [] s t ∧ KeepsIr s t ∧ KeepsStack s t ∧ KeepsDisplay s t := by
  rw [KeepsRegs, KeepsIr, KeepsStack, KeepsDisplay, h]
  exact ⟨rfl, fun _ _ => rfl, rfl, ⟨rfl, fun _ _ => rfl⟩, fun _ _ _ _ => rfl⟩

/-- Whether it is effective or not, the tick writes the timers of the current Machine State at most. -/
theorem timerTick_keeps_cur (s : State) :
    (timerTick s).cur.pc = s.cur.pc ∧ KeepsRegs [] s (timerTick s) ∧ KeepsIr s (timerTick s) ∧
      KeepsStack s (timerTick s) ∧ KeepsDisplay s (timerTick s) := by
  obtain ⟨h, -⟩ | ⟨h, -⟩ := timerTick_cur_cases s
  · exact keeps_of_cur_timers h
  · exact keeps_of_cur_timers (dt := s.cur.dt) (st := s.cur.st) h

/-- An effective tick counts both timers down, not below 0 (R230). -/
theorem timerTick_counts_down {s : State} (h : s.paused = false ∨ s.stepPending = true) :
    (timerTick s).cur.dt.toNat = s.cur.dt.toNat - 1 ∧ (timerTick s).cur.st.toNat = s.cur.st.toNat - 1 := by
  obtain ⟨hcur, -⟩ | ⟨-, hp, hs⟩ := timerTick_cur_cases s
  · simp [hcur]
  · simp [hp, hs] at h

/-- A tick while paused, with no step pending, leaves the timers (R231). -/
theorem timerTick_keepsTimers {s : State} (hp : s.paused = true) (hs : s.stepPending = false) :
    KeepsTimers s (timerTick s) := by
  obtain ⟨-, heffective⟩ | ⟨hcur, -⟩ := timerTick_cur_cases s
  · simp [hp, hs] at heffective
  · exact ⟨by rw [hcur], by rw [hcur]⟩

/-- Settles O41: the tick's cases and frame, on the state that its taking leaves. -/
theorem timerTickCountsDownInPlace : Obligations.TimerTickCountsDownInPlace := by
  intro s rest hc
  let u : State := { s with commands := rest }
  obtain ⟨hpc, hregs, hir, hstack, hfb⟩ := timerTick_keeps_cur u
  have hframe := timerTick_executesNothing u
  exact ⟨timerTick u, step_of_command hc, timerTick_stepPending u, timerTick_counts_down (s := u),
    timerTick_keepsTimers (s := u), hpc, hregs, hir, hstack, hfb, fun i => by rw [hframe.mem],
    ⟨hframe.waiting, timerTick_keyLatch u⟩, hframe.draws, hframe.head, timerTick_current u, hframe.totalCycles,
    timerTick_paused u, timerTick_straps u, timerTick_keyNow u, timerTick_commands u,
    fun i => by rw [hframe.pristine], hframe.slots⟩

/-! ### The Live step -/

/-- An instruction leaves all but the waiting flag as it was, or commits (R116, R117). -/
theorem exec_waits_or_commits {i : Instr} {s t : State} (h : exec i s = .next t) :
    (∃ w, t = { s with waiting := w }) ∨ Committed s t := by
  obtain rfl | ⟨hk, -, rfl⟩ | ⟨m, rfl | ⟨-, bs, rfl⟩ | ⟨-, rfl⟩ | ⟨-, -, rfl⟩⟩ := exec_cases h
  · exact .inl ⟨t.waiting, rfl⟩
  · exact .inl ⟨true, by rw [State.withKeyWait, ← hk]⟩
  · exact .inr (committed_commit s m)
  · exact .inr (committed_commit (s.withMem _) m)
  · exact .inr (committed_commit s.afterDraw m)
  · exact .inr (committed_commit (s.withKeyWait false none) m)

theorem liveStep_waits_or_commits {s t : State} (h : liveStep s = .next t) :
    (∃ w, t = { s with waiting := w }) ∨ Committed s t := by
  obtain ⟨-, rfl⟩ | ⟨i, -, hx⟩ := liveStep_cases h
  · exact .inl ⟨t.waiting, rfl⟩
  · exact exec_waits_or_commits hx

/-- Settles O8: a step that only waits does not move the ring, and a commit ends with `current` on the new head. -/
theorem liveStepCommitsOrChangesNothing : Obligations.LiveStepCommitsOrChangesNothing := by
  intro s t hl h
  have hengine : KeepsEngine s t := keepsEngine_of_sameEngine (liveStep_sameEngine h)
  obtain ⟨w, rfl⟩ | hcommit := liveStep_waits_or_commits h
  · exact ⟨hl, hengine, .inl rfl⟩
  · have ⟨_, hcurrent, _⟩ := hcommit
    exact ⟨hcurrent, hengine, .inr hcommit⟩

end Sys2Proof.Claims

namespace Sys2Proof.Machine

/-! ### Stepping back along the ring -/

/-- Settles O42: the two branches of `STEP_BACK`; the ring distance is the model's `State.dist`. -/
theorem stepBackMovesOnlyCurrent : Obligations.StepBackMovesOnlyCurrent := by
  intro s rest hc
  rw [step_of_command hc]
  have hnext := congrArg Fin.val (ringNext_ringPrev s.current)
  exact ⟨fun h => ⟨ringPrev s.current, hnext, congrArg Host.Outcome.next (if_pos h)⟩,
    fun h => congrArg Host.Outcome.next (if_neg h)⟩

/-- The machine with `current` moved `n` slots back, and nothing else (R248). -/
def State.rewound (s : State) (n : Nat) : State := { s with current := ringPrev^[n] s.current }

theorem State.rewound_succ (s : State) (n : Nat) :
    s.rewound (n + 1) = { s.rewound n with current := ringPrev (s.rewound n).current } := by
  rw [State.rewound, Function.iterate_succ_apply', State.rewound]

/-- Around the ring, `n` slots back from the head are ring distance `n` (R243). -/
theorem State.dist_rewound {s : State} (hl : s.live) {n : Nat} (hn : n ≤ 999) : (s.rewound n).dist = n := by
  induction n with
  | zero => exact State.dist_of_live hl
  | succ n ih =>
    have hd := ih (by omega)
    rw [State.rewound_succ, dist_ringPrev (by omega), hd]

/-- Fewer than 1000 slots back is not the head again. -/
theorem State.rewound_current_ne_head {s : State} (hl : s.live) {n : Nat} (hn : n + 1 ≤ 999) :
    (s.rewound (n + 1)).current ≠ (s.rewound (n + 1)).head := by
  intro h
  have hd := State.dist_rewound hl hn
  rw [State.dist_of_live h] at hd
  omega

end Sys2Proof.Machine

namespace Sys2Proof.Claims

open Sys2Proof.Machine

/-- `STEP_BACK` goes one slot further back, but not beyond the oldest retained state (R248). -/
theorem stepBack_of_rewound {s : State} (hl : s.live) (hp : s.paused = true) {m : Nat}
    (hm : m ≤ min s.totalCycles 999) :
    stepBack (s.rewound m) = s.rewound (min (m + 1) (min s.totalCycles 999)) := by
  have hd : (s.rewound m).dist = m := State.dist_rewound hl (by omega)
  obtain ⟨h, -, hlt⟩ | ⟨h, hrefused⟩ := stepBack_cases (s.rewound m) <;> rw [h]
  · have hlt' : m < min s.totalCycles 999 := hd ▸ hlt
    rw [min_eq_left (Nat.succ_le_of_lt hlt'), State.rewound_succ]
  · have hge : min s.totalCycles 999 ≤ m := by
      by_contra hlt
      exact hrefused ⟨hp, by rw [hd]; exact not_le.mp hlt⟩
    rw [min_eq_right (by omega), le_antisymm hge hm]

theorem step_stepBack_of_rewound {s : State} (hl : s.live) (hp : s.paused = true) {m : Nat}
    (hm : m ≤ min s.totalCycles 999) (cs : List Command) :
    step (withCommands (s.rewound m) (.stepBack :: cs)) =
      .next (withCommands (s.rewound (min (m + 1) (min s.totalCycles 999))) cs) :=
  congrArg Host.Outcome.next (stepBack_of_rewound (s := withCommands s cs) hl hp hm)

/-- `n` `STEP_BACK`s go `n` slots further back, but not beyond the oldest retained state (R248, R249). -/
theorem run_stepBacks_of_rewound {s : State} (hl : s.live) (hp : s.paused = true) {m : Nat}
    (hm : m ≤ min s.totalCycles 999) (n : Nat) (cs : List Command) :
    Host.Core.run core n (withCommands (s.rewound m) (List.replicate n .stepBack ++ cs)) =
      .next (withCommands (s.rewound (min (m + n) (min s.totalCycles 999))) cs) := by
  induction n generalizing m with
  | zero => rw [Nat.add_zero, min_eq_left hm]; rfl
  | succ n ih =>
    refine (run_succ_of_step (step_stepBack_of_rewound hl hp hm _) n).trans ((ih (min_le_right _ _)).trans ?_)
    congr 3
    omega

/-- From Live, and no further than is retained, `n` `STEP_BACK`s go `n` slots back. -/
theorem run_stepBacks {s : State} (hl : s.live) (hp : s.paused = true) (n : Nat) (cs : List Command) :
    Host.Core.run core n (withCommands s (List.replicate n .stepBack ++ cs)) =
      .next (withCommands (s.rewound (min n (min s.totalCycles 999))) cs) := by
  have h := run_stepBacks_of_rewound hl hp (Nat.zero_le _) n cs
  rwa [Nat.zero_add] at h

/-- Settles O43: that many slots back from the head are that ring distance, for at most 999 of them. -/
theorem stepBackReachesOldestRetained : Obligations.StepBackReachesOldestRetained := by
  intro s n hl hp
  have hrun := run_stepBacks hl hp n []
  have hbound : min n (min s.totalCycles 999) ≤ 999 := by omega
  have hd : (s.rewound (min n (min s.totalCycles 999))).dist = _ := State.dist_rewound hl hbound
  rw [List.append_nil] at hrun
  exact ⟨_, hrun, hd, hd.trans_le hbound⟩

/-! ### Stepping forward again -/

/-- One `STEP_FWD` of a machine that was stepped back takes back one of the steps (R244, R247). -/
theorem step_stepFwd_of_rewound {s : State} (hl : s.live) (hp : s.paused = true) {m : Nat} (hm : m + 1 ≤ 999)
    (key : Option Key) (cs : List Command) :
    step (withCommands (s.rewound (m + 1)) (.stepFwd key :: cs)) =
      .next (withCommands (({ s with stepPending := true, keyNow := key } : State).rewound m) cs) := by
  have hback : ringNext (s.rewound (m + 1)).current = (s.rewound m).current := by
    rw [State.rewound_succ, ringNext_ringPrev]
  have hne := State.rewound_current_ne_head hl hm
  obtain ⟨c, hc, -, -, hfwd⟩ := ticksReplayWhileReplaying (withCommands (s.rewound (m + 1)) (.stepFwd key :: cs)) hne
  obtain rfl : c = (s.rewound m).current := (Fin.ext hc).trans hback
  exact hfwd key cs hp rfl

/-- `j` `STEP_FWD`s take back `j` of the steps; of the rest they write the step-pending bit and the key level. -/
theorem run_stepFwds_of_rewound {s : State} (hl : s.live) (hp : s.paused = true) {m j : Nat} (hm : m + j ≤ 999)
    (key : Option Key) :
    ∃ pending keyNow, Host.Core.run core j (withCommands (s.rewound (m + j)) (List.replicate j (.stepFwd key))) =
      .next (withCommands (({ s with stepPending := pending, keyNow := keyNow } : State).rewound m) []) := by
  induction j generalizing s with
  | zero => exact ⟨s.stepPending, s.keyNow, rfl⟩
  | succ j ih =>
    obtain ⟨pending, keyNow, hrun⟩ := ih (s := { s with stepPending := true, keyNow := key }) hl hp (by omega)
    have hstep := step_stepFwd_of_rewound hl hp (m := m + j) (by omega) key (List.replicate j (.stepFwd key))
    exact ⟨pending, keyNow, (run_succ_of_step hstep j).trans hrun⟩

/-! ### The recorded states -/

/-- `f 0`, ..., `f K` are the states of a Live, unpaused run of which every cycle commits (R245). -/
structure Records (f : Nat → State) (K : Nat) : Prop where
  live : ∀ k ≤ K, (f k).live
  running : ∀ k ≤ K, (f k).paused = false
  committed : ∀ k < K, Committed (f k) (f (k + 1))

/-- A tick of a Live, unpaused machine that counts a cycle commits, and leaves the machine Live and unpaused. -/
theorem execTick_commits {s t : State} {key : Option Key} (hl : s.live) (hp : s.paused = false)
    (h : execTick { s with keyNow := key } = .next t) (hcount : t.totalCycles = s.totalCycles + 1) :
    t.live ∧ t.paused = false ∧ Committed s t := by
  rw [execTick_of_live (s := { s with keyNow := key }) hl hp] at h
  obtain ⟨w, rfl⟩ | hcommit := liveStep_waits_or_commits h
  · exact absurd hcount (Nat.ne_of_lt (Nat.lt_succ_self _))
  · have ⟨_, hlive, _⟩ := hcommit
    exact ⟨hlive, (liveStep_sameEngine h).paused.trans hp, hcommit⟩

/-- Ticks that each count a cycle, from a Live and unpaused machine, are such a run. -/
theorem records_of_execTicks {f : Nat → State} {keys : Nat → Option Key} {K : Nat} (hl : (f 0).live)
    (hp : (f 0).paused = false)
    (h : ∀ k, k < K → execTick { f k with keyNow := keys k } = .next (f (k + 1)) ∧
      (f (k + 1)).totalCycles = (f k).totalCycles + 1) : Records f K := by
  have hrun : ∀ k ≤ K, (f k).live ∧ (f k).paused = false := by
    intro k hk
    induction k with
    | zero => exact ⟨hl, hp⟩
    | succ k ih =>
      obtain ⟨hlk, hpk⟩ := ih (by omega)
      obtain ⟨htick, hcount⟩ := h k hk
      obtain ⟨hlive, hpaused, -⟩ := execTick_commits hlk hpk htick hcount
      exact ⟨hlive, hpaused⟩
  refine ⟨fun k hk => (hrun k hk).left, fun k hk => (hrun k hk).right, fun k hk => ?_⟩
  obtain ⟨hlk, hpk⟩ := hrun k hk.le
  obtain ⟨htick, hcount⟩ := h k hk
  obtain ⟨-, -, hcommit⟩ := execTick_commits hlk hpk htick hcount
  exact hcommit

/-- Every recorded cycle is counted. -/
theorem Records.le_totalCycles {f : Nat → State} {K : Nat} (h : Records f K) : ∀ k ≤ K, k ≤ (f k).totalCycles := by
  intro k hk
  induction k with
  | zero => exact Nat.zero_le _
  | succ k ih =>
    have hle := ih (by omega)
    obtain ⟨-, -, hcount, -⟩ := h.committed k hk
    omega

/-- Behind a commit, one slot further back shows what was shown before it. -/
theorem Committed.cur_rewound_succ {s t : State} (h : Committed s t) (hl : s.live) {m : Nat} (hm : m + 1 ≤ 999) :
    (t.rewound (m + 1)).cur = (s.rewound m).cur := by
  obtain ⟨hhead, hcurrent, -, hslots⟩ := h
  have hprev : ringPrev t.current = s.current := by
    rw [hcurrent, show t.head = ringNext s.head from Fin.ext hhead, ringPrev_ringNext, hl]
  have hslot : (t.rewound (m + 1)).current = (s.rewound m).current := by
    rw [State.rewound, Function.iterate_succ_apply, hprev, State.rewound]
  calc (t.rewound (m + 1)).cur
      = t.slot (t.rewound (m + 1)).current := rfl
    _ = s.slot (t.rewound (m + 1)).current := hslots _ (State.rewound_current_ne_head hcurrent hm)
    _ = (s.rewound m).cur := by rw [hslot]; rfl

/-- Up to 999 slots behind the last recorded state the ring holds the states before it, each as it was (R250). -/
theorem Records.cur_rewound {f : Nat → State} {K : Nat} (h : Records f K) {k m : Nat} (hk : k + m ≤ K) (hm : m ≤ 999) :
    ((f (k + m)).rewound m).cur = (f k).cur := by
  induction m with
  | zero => rfl
  | succ m ih =>
    exact ((h.committed (k + m) hk).cur_rewound_succ (h.live _ (by omega)) hm).trans (ih (by omega) (by omega))

/-- Settles O44: the steps back reach the slots where the cycles were recorded, and the steps forward retrace them. -/
theorem historySymmetry : Obligations.HistorySymmetry := by
  intro f keys K j key hK hj hl hp h
  have hrec := records_of_execTicks hl hp h
  have hlive : (togglePause (f K)).live := hrec.live K le_rfl
  have hpaused : (togglePause (f K)).paused = true := by simp [togglePause, hrec.running K le_rfl]
  have hretained : K ≤ min (togglePause (f K)).totalCycles 999 := le_min (hrec.le_totalCycles K le_rfl) hK
  constructor
  · have hback := run_stepBacks hlive hpaused j []
    rw [List.append_nil, min_eq_left (by omega)] at hback
    have hcur := hrec.cur_rewound (k := K - j) (m := j) (by omega) (by omega)
    rw [Nat.sub_add_cancel hj] at hcur
    exact ⟨_, hback, hcur⟩
  · have hback := run_stepBacks hlive hpaused K (List.replicate j (.stepFwd key))
    rw [min_eq_left hretained] at hback
    obtain ⟨pending, keyNow, hfwd⟩ := run_stepFwds_of_rewound hlive hpaused (m := K - j) (j := j) (by omega) key
    rw [Nat.sub_add_cancel hj] at hfwd
    have hcur := hrec.cur_rewound (k := j) (m := K - j) (by omega) (by omega)
    rw [Nat.add_sub_cancel' hj] at hcur
    refine ⟨_, (run_add hback j).trans hfwd, hcur, rfl, fun _ => rfl, ?_⟩
    rintro rfl
    rw [Nat.sub_self]
    exact hlive

end Sys2Proof.Claims

/-! ## Reset and load (70_reset_and_hazards.md) -/

namespace Sys2Proof.Claims

open Sys2Proof.Machine

/-! ### The Machine State behind a reset -/

/-- A reset shows slot 0, where it has put the fresh Machine State (R271). -/
@[simp] theorem cur_resetMachine (s : State) : (resetMachine s).cur = MachineState.fresh := by
  rw [State.cur, State.slot, resetMachine_hist, resetMachine_current, State.slot_zero_after_reset, if_pos rfl]

@[simp] theorem cur_loadProgram (bytes : List Byte) (s : State) : (loadProgram bytes s).cur = MachineState.fresh :=
  cur_resetMachine _

/-- Settles O45: the step is the reset, after which the fresh Machine State is shown. -/
theorem resetCommandRestoresFreshMachine : Obligations.ResetCommandRestoresFreshMachine := by
  intro s rest hc
  refine ⟨resetMachine { s with commands := rest }, step_of_command hc, ?_⟩
  rw [cur_resetMachine]
  exact ⟨fun _ => rfl, fun _ => rfl, rfl, rfl, rfl, rfl, rfl, MachineState.reg_fresh,
    fun i _ => MachineState.stackAt_fresh i, fun px py _ _ => displayPixel_fresh px py,
    rfl, rfl, rfl, rfl, rfl, rfl, rfl, rfl, rfl, rfl, rfl⟩

/-! ### The memory behind a load -/

/-- The program stands from 0x200 on, as far as it fits (R272). -/
theorem memRead_loadImage_program {bytes : List Byte} {i : Nat} (hi : i < bytes.length) (h : 0x200 + i < 4096) :
    memRead (loadImage bytes) (0x200 + i) = bytes.getD i 0 :=
  memRead_memWriteBytes_add [] 0x200 hi h

/-- Below and behind the program a load leaves the power-on image (R51, R272). -/
theorem memRead_loadImage_outside {bytes : List Byte} {i : Nat} (h : i < 0x200 ∨ 0x200 + bytes.length ≤ i) :
    memRead (loadImage bytes) i = if i < 0x50 then Config.fontRom.getD i 0 else 0 := by
  rw [loadImage, memRead_memWriteBytes, if_neg (by omega), memRead_nil, powerOnByte_eq]

/-- Settles O46: the step is a reset onto the loaded image, whose bytes are the program's inside it and the power-on
image's outside it. -/
theorem loadProgramBuildsMemory : Obligations.LoadProgramBuildsMemory := by
  intro s bytes rest hc
  refine ⟨loadProgram bytes { s with commands := rest }, step_of_command hc, ?_⟩
  rw [loadProgram_mem]
  refine ⟨fun i hi => ?font, fun i hlo hhi => ?gap, fun i => memRead_loadImage_program, fun i hi => ?tail,
    fun _ => rfl, cur_loadProgram _ _, rfl, rfl, rfl, rfl, rfl, rfl, rfl, rfl, rfl, rfl, rfl⟩
  case font => rw [memRead_loadImage_outside (.inl (by omega)), if_pos hi]
  case gap => rw [memRead_loadImage_outside (.inl hhi), if_neg (by omega)]
  case tail => rw [memRead_loadImage_outside (.inr hi), if_neg (by omega)]

end Sys2Proof.Claims
